-- ==== Sys2Proof/Word.lean ====
section
/-! DEFINITION. The widths of the CHIP-8 CORE (spec/00_scope.md R4, R6): every value is an unsigned
bit vector, and nothing is ever sign-extended. -/

namespace Sys2Proof

/-- A byte: a general register, a timer, a memory cell (10_state.md R21, R26, R28). -/
abbrev Byte := BitVec 8

/-- Sixteen bits: an opcode, `pc`, `I`, a call-stack slot (10_state.md R23 to R25). -/
abbrev Word := BitVec 16

/-- The 4-bit opcode field that selects a general register, so no index is ever invalid
(10_state.md R21, 60_exceptions.md R257). -/
abbrev RegIndex := BitVec 4

/-- The 12-bit immediate `nnn` (30_encoding.md R93). -/
abbrev Addr12 := BitVec 12

/-- The index of `VF`, the flag register (10_state.md R22). -/
def flagIndex : RegIndex := 0xF

end Sys2Proof
end

