-- ==== Sys2Proof/Syntax.lean ====
section
/-! DEFINITION. The instructions of the CHIP-8 CORE: the decoded fields of an opcode
(30_encoding.md R91), the 33 operation types (R95) and the instructions, one constructor per row of
spec/opcode_table.json in the table's order. -/

namespace Sys2Proof

/-- The decoded view of an opcode: the raw opcode and its six overlapping fields (30_encoding.md R91). -/
structure Fields where
  opcode : Word
  nibble : BitVec 4
  x      : RegIndex
  y      : RegIndex
  n      : BitVec 4
  nn     : Byte
  nnn    : Addr12
  deriving DecidableEq, Repr

/-- The source's `OperationType`: the 33 names of 30_encoding.md R95. -/
inductive OpType where
  | clearScreen | ret | jump | call
  | skipIfVxNnEq | skipIfVxNnNeq | skipIfVxVyEq
  | setRegister | add | setVx | or | and | xor
  | addVy | subVy | shiftRight | subn | shiftLeft
  | skipIfVxVyNeq | setIndex | random | display
  | skipIfKeyEq | skipIfKeyNeq
  | setVxFromDelay | waitForKey | setDelayFromVx | setSoundFromVx
  | addVxToIndex | font | bcd | loadRegisters | storeRegisters
  deriving DecidableEq, Repr

/-- The instructions. Operand order is that of 30_encoding.md R99: `x`, `y`, then the immediate. -/
inductive Instr where
  /-- `0xE0`; `x` is the field no rule can test, carried and ignored (30_encoding.md R96). -/
  | clearScreen (x : RegIndex)
  /-- `0xEE`; `x` is carried and ignored (30_encoding.md R96). -/
  | ret (x : RegIndex)
  /-- `1nnn` -/
  | jump (nnn : Addr12)
  /-- `2nnn` -/
  | call (nnn : Addr12)
  /-- `3xnn` -/
  | skipIfVxNnEq (x : RegIndex) (nn : Byte)
  /-- `4xnn` -/
  | skipIfVxNnNeq (x : RegIndex) (nn : Byte)
  /-- `5xy0` -/
  | skipIfVxVyEq (x y : RegIndex)
  /-- `6xnn` -/
  | setRegister (x : RegIndex) (nn : Byte)
  /-- `7xnn` -/
  | add (x : RegIndex) (nn : Byte)
  /-- `8xy0` -/
  | setVx (x y : RegIndex)
  /-- `8xy1` -/
  | or (x y : RegIndex)
  /-- `8xy2` -/
  | and (x y : RegIndex)
  /-- `8xy3` -/
  | xor (x y : RegIndex)
  /-- `8xy4` -/
  | addVy (x y : RegIndex)
  /-- `8xy5` -/
  | subVy (x y : RegIndex)
  /-- `8xy6` -/
  | shiftRight (x y : RegIndex)
  /-- `8xy7` -/
  | subn (x y : RegIndex)
  /-- `8xyE` -/
  | shiftLeft (x y : RegIndex)
  /-- `9xy0` -/
  | skipIfVxVyNeq (x y : RegIndex)
  /-- `Annn` -/
  | setIndex (nnn : Addr12)
  /-- `Cxnn` -/
  | random (x : RegIndex) (nn : Byte)
  /-- `Dxyn` -/
  | display (x y : RegIndex) (n : BitVec 4)
  /-- `Ex9E` -/
  | skipIfKeyEq (x : RegIndex)
  /-- `ExA1` -/
  | skipIfKeyNeq (x : RegIndex)
  /-- `Fx07` -/
  | setVxFromDelay (x : RegIndex)
  /-- `Fx0A` -/
  | waitForKey (x : RegIndex)
  /-- `Fx15` -/
  | setDelayFromVx (x : RegIndex)
  /-- `Fx18` -/
  | setSoundFromVx (x : RegIndex)
  /-- `Fx1E` -/
  | addVxToIndex (x : RegIndex)
  /-- `Fx29` -/
  | font (x : RegIndex)
  /-- `Fx33` -/
  | bcd (x : RegIndex)
  /-- `Fx55`: registers TO memory, despite the name (30_encoding.md R100). -/
  | loadRegisters (x : RegIndex)
  /-- `Fx65`: memory TO registers, despite the name (30_encoding.md R100). -/
  | storeRegisters (x : RegIndex)
  deriving DecidableEq, Repr

/-- The operation type an instruction belongs to. -/
def Instr.opType : Instr → OpType
  | .clearScreen _ => .clearScreen
  | .ret _ => .ret
  | .jump _ => .jump
  | .call _ => .call
  | .skipIfVxNnEq _ _ => .skipIfVxNnEq
  | .skipIfVxNnNeq _ _ => .skipIfVxNnNeq
  | .skipIfVxVyEq _ _ => .skipIfVxVyEq
  | .setRegister _ _ => .setRegister
  | .add _ _ => .add
  | .setVx _ _ => .setVx
  | .or _ _ => .or
  | .and _ _ => .and
  | .xor _ _ => .xor
  | .addVy _ _ => .addVy
  | .subVy _ _ => .subVy
  | .shiftRight _ _ => .shiftRight
  | .subn _ _ => .subn
  | .shiftLeft _ _ => .shiftLeft
  | .skipIfVxVyNeq _ _ => .skipIfVxVyNeq
  | .setIndex _ => .setIndex
  | .random _ _ => .random
  | .display _ _ _ => .display
  | .skipIfKeyEq _ => .skipIfKeyEq
  | .skipIfKeyNeq _ => .skipIfKeyNeq
  | .setVxFromDelay _ => .setVxFromDelay
  | .waitForKey _ => .waitForKey
  | .setDelayFromVx _ => .setDelayFromVx
  | .setSoundFromVx _ => .setSoundFromVx
  | .addVxToIndex _ => .addVxToIndex
  | .font _ => .font
  | .bcd _ => .bcd
  | .loadRegisters _ => .loadRegisters
  | .storeRegisters _ => .storeRegisters

end Sys2Proof
end

