-- ==== Sys2Proof/WellFormed.lean ====
section
/-! DEFINITION. Well-formedness of the syntax.

Every operand of an instruction has exactly the width its field has in the opcode (30_encoding.md
R91, R93) and every value of every field is admitted (R96, R98), so EVERY term of `Instr` is
well-formed: the types leave nothing to check, and `Instr.wellFormed` says so. What can be ill-formed
is the decoded view of an opcode, whose fields overlap: `nn` must be `y` and `n`, `nnn` must be `x`
and `nn`, and the opcode must be `nibble` and `nnn` (95_test_vectors.md Q1). -/

namespace Sys2Proof

/-- `nn` overlaps `y` and `n` (30_encoding.md R91). -/
def Fields.nnAgrees (f : Fields) : Bool := f.nn == f.y ++ f.n

/-- `nnn` overlaps `x`, `y` and `n` (30_encoding.md R91). -/
def Fields.nnnAgrees (f : Fields) : Bool := f.nnn == f.x ++ f.nn

/-- The opcode is its high nibble followed by `nnn` (30_encoding.md R91). -/
def Fields.opcodeAgrees (f : Fields) : Bool := f.opcode == f.nibble ++ f.nnn

/-- The fields are those of one opcode. -/
def Fields.wellFormed (f : Fields) : Bool := f.nnAgrees && f.nnnAgrees && f.opcodeAgrees

/-- No operand of an instruction can be out of its field's range: there is nothing to refuse. -/
def Instr.wellFormed (_ : Instr) : Bool := true

end Sys2Proof
end

