-- ==== Sys2Proof/Decode.lean ====
section
/-! DEFINITION. The operation decoder in the three stages of 30_encoding.md R103 (fields, operation
type, operands), total on every opcode and every list of bytes, and the encoder. -/

namespace Sys2Proof

/-- Stage 1, total and pure: the six fields of an opcode (30_encoding.md R91). -/
def decodeFields (op : Word) : Fields where
  opcode := op
  nibble := op.extractLsb' 12 4
  x      := op.extractLsb' 8 4
  y      := op.extractLsb' 4 4
  n      := op.extractLsb' 0 4
  nn     := op.extractLsb' 0 8
  nnn    := op.extractLsb' 0 12

/-- A match rule: a required `nibble` and optionally a required `n` or `nn`; no rule can constrain `x`,
nor `y` apart from `nn` (30_encoding.md R94). -/
structure MatchRule where
  op     : OpType
  nibble : BitVec 4
  n      : Option (BitVec 4) := none
  nn     : Option Byte := none
  deriving DecidableEq, Repr

/-- A rule matches when all its required fields equal the opcode's (30_encoding.md R94). -/
def MatchRule.accepts (r : MatchRule) (f : Fields) : Bool :=
  r.nibble == f.nibble && r.n.all (· == f.n) && r.nn.all (· == f.nn)

/-- The rows of 30_encoding.md R95 with nibbles 0 to 7. -/
def matchRulesLow : List MatchRule :=
  [ { op := .clearScreen, nibble := 0x0, nn := some 0xE0 },
    { op := .ret, nibble := 0x0, nn := some 0xEE },
    { op := .jump, nibble := 0x1 },
    { op := .call, nibble := 0x2 },
    { op := .skipIfVxNnEq, nibble := 0x3 },
    { op := .skipIfVxNnNeq, nibble := 0x4 },
    { op := .skipIfVxVyEq, nibble := 0x5, n := some 0x0 },
    { op := .setRegister, nibble := 0x6 },
    { op := .add, nibble := 0x7 } ]

/-- The rows of 30_encoding.md R95 with nibbles 8 to 0xD. -/
def matchRulesMiddle : List MatchRule :=
  [ { op := .setVx, nibble := 0x8, n := some 0x0 },
    { op := .or, nibble := 0x8, n := some 0x1 },
    { op := .and, nibble := 0x8, n := some 0x2 },
    { op := .xor, nibble := 0x8, n := some 0x3 },
    { op := .addVy, nibble := 0x8, n := some 0x4 },
    { op := .subVy, nibble := 0x8, n := some 0x5 },
    { op := .shiftRight, nibble := 0x8, n := some 0x6 },
    { op := .subn, nibble := 0x8, n := some 0x7 },
    { op := .shiftLeft, nibble := 0x8, n := some 0xE },
    { op := .skipIfVxVyNeq, nibble := 0x9, n := some 0x0 },
    { op := .setIndex, nibble := 0xA },
    { op := .random, nibble := 0xC },
    { op := .display, nibble := 0xD } ]

/-- The rows of 30_encoding.md R95 with nibbles 0xE and 0xF. -/
def matchRulesHigh : List MatchRule :=
  [ { op := .skipIfKeyEq, nibble := 0xE, nn := some 0x9E },
    { op := .skipIfKeyNeq, nibble := 0xE, nn := some 0xA1 },
    { op := .setVxFromDelay, nibble := 0xF, nn := some 0x07 },
    { op := .waitForKey, nibble := 0xF, nn := some 0x0A },
    { op := .setDelayFromVx, nibble := 0xF, nn := some 0x15 },
    { op := .setSoundFromVx, nibble := 0xF, nn := some 0x18 },
    { op := .addVxToIndex, nibble := 0xF, nn := some 0x1E },
    { op := .font, nibble := 0xF, nn := some 0x29 },
    { op := .bcd, nibble := 0xF, nn := some 0x33 },
    { op := .loadRegisters, nibble := 0xF, nn := some 0x55 },
    { op := .storeRegisters, nibble := 0xF, nn := some 0x65 } ]

/-- The ordered rule table (30_encoding.md R94, R95). 27 of its patterns the spec itself takes from
general knowledge (92_eei_decisions.md D31; log entry 8). -/
def matchRules : List MatchRule := matchRulesLow ++ matchRulesMiddle ++ matchRulesHigh

/-- Stage 2, partial: the first rule that matches; `none` is the verdict "unassigned"
(30_encoding.md R94, R97, R98). -/
def classify (f : Fields) : Option OpType :=
  (matchRules.find? (·.accepts f)).map (·.op)

/-- The operands an operation type takes from the fields (30_encoding.md R92, R93). -/
def withOperands (t : OpType) (f : Fields) : Instr :=
  match t with
  | .clearScreen => .clearScreen f.x
  | .ret => .ret f.x
  | .jump => .jump f.nnn
  | .call => .call f.nnn
  | .skipIfVxNnEq => .skipIfVxNnEq f.x f.nn
  | .skipIfVxNnNeq => .skipIfVxNnNeq f.x f.nn
  | .skipIfVxVyEq => .skipIfVxVyEq f.x f.y
  | .setRegister => .setRegister f.x f.nn
  | .add => .add f.x f.nn
  | .setVx => .setVx f.x f.y
  | .or => .or f.x f.y
  | .and => .and f.x f.y
  | .xor => .xor f.x f.y
  | .addVy => .addVy f.x f.y
  | .subVy => .subVy f.x f.y
  | .shiftRight => .shiftRight f.x f.y
  | .subn => .subn f.x f.y
  | .shiftLeft => .shiftLeft f.x f.y
  | .skipIfVxVyNeq => .skipIfVxVyNeq f.x f.y
  | .setIndex => .setIndex f.nnn
  | .random => .random f.x f.nn
  | .display => .display f.x f.y f.n
  | .skipIfKeyEq => .skipIfKeyEq f.x
  | .skipIfKeyNeq => .skipIfKeyNeq f.x
  | .setVxFromDelay => .setVxFromDelay f.x
  | .waitForKey => .waitForKey f.x
  | .setDelayFromVx => .setDelayFromVx f.x
  | .setSoundFromVx => .setSoundFromVx f.x
  | .addVxToIndex => .addVxToIndex f.x
  | .font => .font f.x
  | .bcd => .bcd f.x
  | .loadRegisters => .loadRegisters f.x
  | .storeRegisters => .storeRegisters f.x

/-- The instruction an opcode stands for; `none` when the opcode is unassigned (30_encoding.md R97). -/
def decodeWord (op : Word) : Option Instr :=
  (classify (decodeFields op)).map fun t => withOperands t (decodeFields op)

/-- The opcode two fetched bytes form: the byte at the lower address is the high byte
(20_memory.md R64). -/
def opcodeOf (hi lo : Byte) : Word := hi ++ lo

/-- The high byte of an opcode, which stands at the lower address (20_memory.md R64). -/
def highByte (op : Word) : Byte := op.extractLsb' 8 8

/-- The low byte of an opcode (20_memory.md R64). -/
def lowByte (op : Word) : Byte := op.extractLsb' 0 8

/-- Why a list of bytes holds no instruction. -/
inductive DecodeError where
  /-- Fewer than the two bytes every instruction has (30_encoding.md R90). -/
  | truncated
  /-- The opcode matches no row (30_encoding.md R97). -/
  | unassigned (opcode : Word)
  deriving DecidableEq, Repr

/-- The instruction at the head of a list of bytes, with the bytes after it. -/
def decode : List Byte → Except DecodeError (Instr × List Byte)
  | hi :: lo :: rest =>
    match decodeWord (opcodeOf hi lo) with
    | some i => .ok (i, rest)
    | none => .error (.unassigned (opcodeOf hi lo))
  | _ => .error .truncated

/-- The opcode of an instruction: the pattern column of 30_encoding.md R95. -/
def encode : Instr → Word
  | .clearScreen x => 0x0#4 ++ x ++ 0xE0#8
  | .ret x => 0x0#4 ++ x ++ 0xEE#8
  | .jump nnn => 0x1#4 ++ nnn
  | .call nnn => 0x2#4 ++ nnn
  | .skipIfVxNnEq x nn => 0x3#4 ++ x ++ nn
  | .skipIfVxNnNeq x nn => 0x4#4 ++ x ++ nn
  | .skipIfVxVyEq x y => 0x5#4 ++ x ++ y ++ 0x0#4
  | .setRegister x nn => 0x6#4 ++ x ++ nn
  | .add x nn => 0x7#4 ++ x ++ nn
  | .setVx x y => 0x8#4 ++ x ++ y ++ 0x0#4
  | .or x y => 0x8#4 ++ x ++ y ++ 0x1#4
  | .and x y => 0x8#4 ++ x ++ y ++ 0x2#4
  | .xor x y => 0x8#4 ++ x ++ y ++ 0x3#4
  | .addVy x y => 0x8#4 ++ x ++ y ++ 0x4#4
  | .subVy x y => 0x8#4 ++ x ++ y ++ 0x5#4
  | .shiftRight x y => 0x8#4 ++ x ++ y ++ 0x6#4
  | .subn x y => 0x8#4 ++ x ++ y ++ 0x7#4
  | .shiftLeft x y => 0x8#4 ++ x ++ y ++ 0xE#4
  | .skipIfVxVyNeq x y => 0x9#4 ++ x ++ y ++ 0x0#4
  | .setIndex nnn => 0xA#4 ++ nnn
  | .random x nn => 0xC#4 ++ x ++ nn
  | .display x y n => 0xD#4 ++ x ++ y ++ n
  | .skipIfKeyEq x => 0xE#4 ++ x ++ 0x9E#8
  | .skipIfKeyNeq x => 0xE#4 ++ x ++ 0xA1#8
  | .setVxFromDelay x => 0xF#4 ++ x ++ 0x07#8
  | .waitForKey x => 0xF#4 ++ x ++ 0x0A#8
  | .setDelayFromVx x => 0xF#4 ++ x ++ 0x15#8
  | .setSoundFromVx x => 0xF#4 ++ x ++ 0x18#8
  | .addVxToIndex x => 0xF#4 ++ x ++ 0x1E#8
  | .font x => 0xF#4 ++ x ++ 0x29#8
  | .bcd x => 0xF#4 ++ x ++ 0x33#8
  | .loadRegisters x => 0xF#4 ++ x ++ 0x55#8
  | .storeRegisters x => 0xF#4 ++ x ++ 0x65#8

/-- The two bytes of an instruction as memory holds them, high byte first (30_encoding.md R90). -/
def encodeBytes (i : Instr) : List Byte := [highByte (encode i), lowByte (encode i)]

/-- The opcode whose low `nbits` bits are those of `w`, the bits above them zero. -/
def tableOpcode (nbits w : Nat) : Word := BitVec.ofNat 16 (w % 2 ^ nbits)

/-- What the decoder reads from the instruction whose bits are `w`, numbered as
spec/opcode_table.json numbers them: the opcode is laid out high byte first and decoded. -/
def decodeTableWord (nbits w : Nat) : Option Instr :=
  match decode [highByte (tableOpcode nbits w), lowByte (tableOpcode nbits w)] with
  | .ok (i, _) => some i
  | .error _ => none

end Sys2Proof
end

