-- ==== Sys2Proof/Config.lean ====
section
/-! DEFINITION. The implementation parameters of spec/00_scope.md R4, one definition each, and the one
free value of the model (the random byte). -/

namespace Sys2Proof.Config

/-- `MEM_SIZE`: the cells are at addresses 0 to 4095. -/
abbrev memSize : Nat := 4096

/-- `PC_RESET`. -/
def pcReset : Word := 0x200

/-- `PROGRAM_START`: where the host loads the ROM (70_reset_and_hazards.md R292). -/
abbrev programStart : Nat := 0x200

/-- The host's bound on the length of a ROM, 0xFFF - 0x200, as 20_memory.md R75 quotes it. -/
abbrev romBound : Nat := 0xDFF

/-- `STACK_DEPTH`. -/
abbrev stackDepth : Nat := 16

/-- `FONT_BASE`. -/
abbrev fontBase : Nat := 0x050

/-- `GLYPH_BYTES`. -/
abbrev glyphBytes : Nat := 5

/-- `FB_WIDTH`, in pixels. -/
abbrev fbWidth : Nat := 64

/-- `FB_HEIGHT`, in pixels. -/
abbrev fbHeight : Nat := 32

/-- The switch `CARRY_THRESHOLD` at the spec's value (42_register_alu.md R167, 92_eei_decisions.md D24). -/
def carryThreshold : Nat := 255

/-- The switch `WAIT_TICKS_TIMERS` at the spec's value (40_cycle.md R128, 92_eei_decisions.md D8). -/
def waitTicksTimers : Bool := false

/-- The switch `BCD_FIXED3` at the spec's value (43_index_memory.md R193, 92_eei_decisions.md D12). -/
def bcdFixed3 : Bool := true

/-- The open parameter `MEM_FILL` (10_state.md R35, 92_eei_decisions.md D16).
DESIGN CHOICE, unsafe: 0x00 in every cell, the value the spec's test vectors take (log entry 2). -/
def memFill (_addr : Nat) : Byte := 0x00

/-- FREE VALUE: `randomByte source k` is the byte `RND` that the `k`-th RANDOM executed by a block on that
random source draws; two blocks on two sources share nothing (42_register_alu.md R172, 10_state.md R37,
92_eei_decisions.md D19). It has no body, so no proof can know any value of it (log entry 1). -/
opaque randomByte : Nat → Nat → Byte

end Sys2Proof.Config
end

