-- ==== Sys2Proof/Machine/State.lean ====
section
/-! DEFINITION. The state of the block as plain data (10_state.md R20), its faults (60_exceptions.md
R250) and its state after reset (10_state.md R35, 70_reset_and_hazards.md R290). -/

namespace Sys2Proof.Machine

/-- The closed fault type of 60_exceptions.md R250, R271. A fault is TAKEN: the step answers a next
state in which the fault is latched (R261), so no step of this model answers `Outcome.fault`, and the
machine never stops without a next state. Each constructor carries the `info` the latch records. -/
inductive Fault where
  /-- Code 1. Raised by the classify step of a cycle on an unassigned opcode (R251). Safe: the latch
  halts the block, where the source leaves its caller free to skip on. -/
  | unhandledOperation (opcode : Word)
  /-- Code 2. Raised by fetch, DISPLAY, BCD, LOAD_REGISTERS and STORE_REGISTERS (and by a launch
  whose ROM is too long, 20_memory.md R75) at the first address of 4096 or more (R252). Safe, as code 1. -/
  | outOfBoundsMemory (addr : BitVec 17)
  /-- Code 3. Reserved: raised by nothing, since every register index is a 4-bit field (R257). Safe:
  nothing depends on it. -/
  | invalidRegister
  /-- Code 4. Raised by CALL at `SP = 16` (R253). Safe: the reference nests deeper. -/
  | stackOverflow
  /-- Code 5. Raised by RETURN at `SP = 0` (R254). Safe: the reference fails there too. -/
  | stackUnderflow
  /-- Code 6. Raised by ADD_VX_TO_INDEX when the exact sum exceeds 0xFFFF (R255). Safe: the reference
  goes on with a wider index. -/
  | indexOverflow (sum : BitVec 17)
  /-- Code 7. Raised by FONT when `V[x] > 0xF` (R256). Safe: the reference fails there too. -/
  | invalidFontDigit (value : Byte)
  deriving DecidableEq, Repr

/-- The reasons a step has no meaning. -/
inductive Refusal where
  /-- An instruction without a meaning yet, answered by `exec`'s arm and by nothing else. Safe: the
  model stops where the hardware goes on. No arm answers it now. -/
  | notModelled (mnemonic : String)
  deriving DecidableEq, Repr

/-- The fault latch `FAULT` (10_state.md R30). -/
structure FaultLatch where
  valid : Bool
  code  : BitVec 3
  info  : BitVec 17
  deriving DecidableEq, Repr

/-- The latch with no fault in it; code 0 appears only here (60_exceptions.md R250). -/
def FaultLatch.clear : FaultLatch := { valid := false, code := 0, info := 0 }

/-- The framebuffer `FB`: 32 rows of 64 pixels, `true` for on (10_state.md R29, 44_display.md R210). -/
abbrev Framebuffer := Vector (Vector Bool 64) 32

/-- The framebuffer with every pixel off. -/
def Framebuffer.clear : Framebuffer := Vector.replicate 32 (Vector.replicate 64 false)

/-- The complete state of the block: the record of 10_state.md R20, row by row, and nothing else
(R36, R37). -/
structure Block where
  /-- `V0` to `VF` (R21, R22). -/
  v      : Vector Byte 16
  /-- The program counter (R23). -/
  pc     : Word
  /-- The index register `I` (R24). -/
  index  : Word
  /-- The call stack: slot `k`, 1 to 16, stands at position `k - 1` (R25). -/
  stack  : Vector Word 16
  /-- The stack depth counter, 0 to 16 (R25). -/
  sp     : Fin 17
  /-- The delay timer (R26). -/
  dt     : Byte
  /-- The sound timer (R27). -/
  st     : Byte
  /-- Memory in canonical form (R28): strictly rising addresses below 4096, no cell equal to what an
  unlisted address reads as. -/
  mem    : List Host.Cell
  /-- The framebuffer (R29). -/
  fb     : Framebuffer
  /-- The fault latch (R30). -/
  fault  : FaultLatch
  /-- The key port as the host drives it (R31). -/
  key    : Option Byte
  deriving DecidableEq, Repr

/-- THE MODEL'S OWN, no state of the block (10_state.md R20, R32): the position of the input port `RND`.
It says which free byte the port presents next, `Config.randomByte source draws`, and so stands for the
free input that R172 asks for, `exec` having no argument of its own for it (log entry 1). -/
structure RandomPort where
  /-- Which random source feeds the port: two blocks share no byte unless they share a source (R37). -/
  source : Nat
  /-- How many RANDOMs have drawn from it: the next one draws a fresh byte. -/
  draws  : Nat
  deriving DecidableEq, Repr

/-- What a step works on: the block, whose complete state is `toBlock`, and beside it the port `RND`. -/
structure State extends Block where
  /-- The port `RND`; no state of the block, read by RANDOM alone (R32). -/
  random : RandomPort
  deriving DecidableEq, Repr

/-- The record of R20 right after reset, before the host loads a ROM (10_state.md R35). Memory lists
nothing: an unlisted address reads as its reset content. -/
def Block.reset : Block where
  v      := Vector.replicate 16 0x00
  pc     := Config.pcReset
  index  := 0
  stack  := Vector.replicate 16 0
  sp     := 0
  dt     := 0
  st     := 0
  mem    := []
  fb     := Framebuffer.clear
  fault  := FaultLatch.clear
  key    := none

/-- The state right after reset: the block of R35, before any draw. -/
def State.reset : State where
  toBlock := Block.reset
  random  := { source := 0, draws := 0 }

/-- What one step answers. -/
abbrev Result := Host.Outcome State Fault Refusal

end Sys2Proof.Machine
end

