-- ==== Sys2Proof/Machine/Font.lean ====
section
/-! DEFINITION. The font table that reset places at 0x050 to 0x09F (70_reset_and_hazards.md R291), and
with it the reset content of every memory cell (10_state.md R35). -/

namespace Sys2Proof.Machine

/-- Glyphs 0 to 7, five rows each. Only glyph 1 stands in the source; the spec takes the rest from
general knowledge (R291; log entry 7). -/
def fontLow : List Byte :=
  [0xF0, 0x90, 0x90, 0x90, 0xF0] ++ [0x20, 0x60, 0x20, 0x20, 0x70] ++
  [0xF0, 0x10, 0xF0, 0x80, 0xF0] ++ [0xF0, 0x10, 0xF0, 0x10, 0xF0] ++
  [0x90, 0x90, 0xF0, 0x10, 0x10] ++ [0xF0, 0x80, 0xF0, 0x10, 0xF0] ++
  [0xF0, 0x80, 0xF0, 0x90, 0xF0] ++ [0xF0, 0x10, 0x20, 0x40, 0x40]

/-- Glyphs 8 to F, five rows each (R291). -/
def fontHigh : List Byte :=
  [0xF0, 0x90, 0xF0, 0x90, 0xF0] ++ [0xF0, 0x90, 0xF0, 0x10, 0xF0] ++
  [0xF0, 0x90, 0xF0, 0x90, 0x90] ++ [0xE0, 0x90, 0xE0, 0x90, 0xE0] ++
  [0xF0, 0x80, 0x80, 0x80, 0xF0] ++ [0xE0, 0x90, 0x90, 0x90, 0xE0] ++
  [0xF0, 0x80, 0xF0, 0x80, 0xF0] ++ [0xF0, 0x80, 0xF0, 0x80, 0x80]

/-- The 80 bytes of the font in address order (R291). -/
def fontTable : List Byte := fontLow ++ fontHigh

/-- What the cell at an address holds after reset, and so what an unlisted address reads as: the font
at 0x050 to 0x09F, `MEM_FILL` elsewhere (10_state.md R35). -/
def resetByte (addr : Nat) : Byte :=
  if Config.fontBase ≤ addr then fontTable.getD (addr - Config.fontBase) (Config.memFill addr)
  else Config.memFill addr

end Sys2Proof.Machine
end

