-- ==== Sys2Proof/Machine/Ops.lean ====
section
/-! DEFINITION. The named operations over the state: memory behind the bounds check (20_memory.md R62,
R63), registers, call stack, framebuffer, taking a fault (60_exceptions.md R261), the timer tick
(40_cycle.md R126), and what the host writes (70_reset_and_hazards.md R292, R294). -/

namespace Sys2Proof.Machine

/-! ## Memory: a canonical list of cells -/

/-- The byte a list of cells holds for an address, if it lists one. -/
def Memory.lookup : List Host.Cell → Nat → Option Byte
  | [], _ => none
  | (k, b) :: rest, a => if k = a then some b else Memory.lookup rest a

/-- The byte at an address: the listed one, else the cell's reset content (20_memory.md R68). -/
def Memory.read (m : List Host.Cell) (a : Nat) : Byte := (Memory.lookup m a).getD (resetByte a)

/-- The cell `(a, b)` in front of cells at higher addresses; left out where `b` is what an unlisted
address reads as. -/
def Memory.putCell (a : Nat) (b : Byte) (rest : List Host.Cell) : List Host.Cell :=
  if b = resetByte a then rest else (a, b) :: rest

/-- The cells after a write of one byte (20_memory.md R68), in canonical form. -/
def Memory.write : List Host.Cell → Nat → Byte → List Host.Cell
  | [], a, b => Memory.putCell a b []
  | (k, c) :: rest, a, b =>
    if a < k then Memory.putCell a b ((k, c) :: rest)
    else if a = k then Memory.putCell a b rest
    else (k, c) :: Memory.write rest a b

/-- The canonical form: addresses strictly rising and below 4096, no cell equal to what an unlisted
address reads as. -/
abbrev Memory.wf (m : List Host.Cell) : Prop :=
  m.Pairwise (fun p q => p.1 < q.1) ∧ ∀ p ∈ m, p.1 < Config.memSize ∧ p.2 ≠ resetByte p.1

/-- The byte `MEM[a]` holds, with no bounds check: what a statement reads memory by. -/
def State.byteAt (s : State) (a : Nat) : Byte := Memory.read s.mem a

/-- `MEM[a] <- b`, with no bounds check. -/
def State.setByte (s : State) (a : Nat) (b : Byte) : State := { s with mem := Memory.write s.mem a b }

/-! ## Registers -/

/-- `V[i]` (00_scope.md R7). -/
def State.reg (s : State) (i : RegIndex) : Byte := s.v[i.toNat]'i.isLt

/-- `V[i] <- b` (00_scope.md R7). -/
def State.setReg (s : State) (i : RegIndex) (b : Byte) : State :=
  { s with v := s.v.set i.toNat b i.isLt }

/-- `VF <- b` (10_state.md R22). -/
def State.setFlag (s : State) (b : Byte) : State := s.setReg flagIndex b

/-- `pc <- t` (00_scope.md R7). -/
def State.setPc (s : State) (t : Word) : State := { s with pc := t }

/-- Fetch's advance of the program counter (40_cycle.md R122). -/
def State.advancePc (s : State) : State := s.setPc (s.pc + 2)

/-- `I <- t`. -/
def State.setIndex (s : State) (t : Word) : State := { s with index := t }

/-- `DT <- b`. -/
def State.setDt (s : State) (b : Byte) : State := { s with dt := b }

/-- `ST <- b`. -/
def State.setSt (s : State) (b : Byte) : State := { s with st := b }

/-- `STACK[k + 1]`: slots are numbered from 1, so slot 0 does not exist (10_state.md R25). -/
def State.slot (s : State) (k : Fin 16) : Word := s.stack[k]

/-- The state after a CALL has pushed `pc` as slot `k + 1`, `k` the old depth (10_state.md R25). -/
def State.push (s : State) (k : Fin 16) : State :=
  { s with sp := k.succ, stack := s.stack.set k s.pc }

/-- The state after a RETURN has gone back through slot `k + 1`, the old depth; the slot keeps its
value (10_state.md R25). -/
def State.pop (s : State) (k : Fin 16) : State :=
  { s with sp := k.castSucc, pc := s.stack[k] }

/-! ## Faults -/

/-- The number of a fault (60_exceptions.md R250). -/
def Fault.code : Fault → BitVec 3
  | .unhandledOperation _ => 1
  | .outOfBoundsMemory _ => 2
  | .invalidRegister => 3
  | .stackOverflow => 4
  | .stackUnderflow => 5
  | .indexOverflow _ => 6
  | .invalidFontDigit _ => 7

/-- What the latch records of a fault (60_exceptions.md R250). -/
def Fault.info : Fault → BitVec 17
  | .unhandledOperation opcode => opcode.setWidth 17
  | .outOfBoundsMemory addr => addr
  | .invalidRegister => 0
  | .stackOverflow => 16
  | .stackUnderflow => 0
  | .indexOverflow sum => sum
  | .invalidFontDigit value => value.setWidth 17

/-- `FAULT <- (valid = 1, code, info)` and nothing else: every other piece of state keeps the value it
has at that point (60_exceptions.md R261). -/
def State.latch (s : State) (f : Fault) : State :=
  { s with fault := { valid := true, code := f.code, info := f.info } }

/-- `raise F(info)`: taking a fault is the next state with the fault latched. There is no handler and
no return from it: only reset clears the latch (60_exceptions.md R261, R262). -/
def raise (f : Fault) (s : State) : Result := .next (s.latch f)

/-! ## Memory behind the bounds check -/

/-- The fault of an access at `a` (20_memory.md R62). -/
def outOfBounds (a : Nat) : Fault := .outOfBoundsMemory (BitVec.ofNat 17 a)

/-- `MemRead(a, 1)`: no masking and no clamp (20_memory.md R62, R63). -/
def memRead (s : State) (a : Nat) : Except Fault Byte :=
  if a < Config.memSize then .ok (s.byteAt a) else .error (outOfBounds a)

/-- `MemWrite(a, 1, b)` (20_memory.md R62, R63). -/
def memWrite (s : State) (a : Nat) (b : Byte) : Except Fault State :=
  if a < Config.memSize then .ok (s.setByte a b) else .error (outOfBounds a)

/-- `MemRead(a, n)`: `n` bytes in ascending order, the first address out of bounds raises
(20_memory.md R62). -/
def readRange (s : State) (a : Nat) : Nat → Except Fault (List Byte)
  | 0 => .ok []
  | n + 1 =>
    match memRead s a with
    | .error f => .error f
    | .ok b =>
      match readRange s (a + 1) n with
      | .error f => .error f
      | .ok bs => .ok (b :: bs)

/-- `MemWrite(a, n, bytes)`: single-byte writes in ascending order; the first address out of bounds
raises, and the bytes below it stay written (20_memory.md R62, R69). -/
def writeRange (s : State) (a : Nat) : List Byte → Result
  | [] => .next s
  | b :: bs =>
    match memWrite s a b with
    | .error f => raise f s
    | .ok t => writeRange t (a + 1) bs

/-- `V[i] <- MemRead(base + i, 1)` for each register of a list in order; the first address out of
bounds raises, and the registers before it stay loaded (20_memory.md R69). -/
def loadRegsFrom (base : Nat) : List RegIndex → State → Result
  | [], s => .next s
  | i :: is, s =>
    match memRead s (base + i.toNat) with
    | .error f => raise f s
    | .ok b => loadRegsFrom base is (s.setReg i b)

/-! ## The framebuffer and the draw procedure (44_display.md R211) -/

/-- `FB[r][c]` (44_display.md R210). -/
def Framebuffer.pixel (fb : Framebuffer) (r : Fin 32) (c : Fin 64) : Bool := fb[r][c]

/-- `FB[r][c] <- FB[r][c] ^ 1`. -/
def Framebuffer.toggle (fb : Framebuffer) (r : Fin 32) (c : Fin 64) : Framebuffer :=
  fb.set r (fb[r].set c (!fb[r][c]))

/-- The row a sprite row lands on: `(py + row) mod 32`, wrapped and never clipped. -/
def wrapRow (py : Byte) (row : Nat) : Fin 32 := ⟨(py.toNat + row) % 32, Nat.mod_lt _ (by decide)⟩

/-- The column a sprite bit lands on: `(px + col) mod 64`. -/
def wrapCol (px : Byte) (col : Nat) : Fin 64 := ⟨(px.toNat + col) % 64, Nat.mod_lt _ (by decide)⟩

/-- The sprite bit at a column, most significant bit first: column 0 is bit 7. -/
def spriteBit (b : Byte) (col : Nat) : Bool := b.getLsbD (7 - col)

/-- What a draw carries: the framebuffer so far and whether it has met a pixel already on. -/
structure Drawing where
  fb        : Framebuffer
  collision : Bool
  deriving DecidableEq, Repr

/-- One bit of a sprite: a 1 bit toggles its pixel and collides with a pixel that is on; a 0 bit does
neither. -/
def drawBit (px : Byte) (r : Fin 32) (b : Byte) (d : Drawing) (col : Nat) : Drawing :=
  if spriteBit b col then
    { fb := d.fb.toggle r (wrapCol px col), collision := d.collision || d.fb.pixel r (wrapCol px col) }
  else d

/-- One byte of a sprite: its eight bits in column order. -/
def drawRow (px : Byte) (r : Fin 32) (b : Byte) (d : Drawing) : Drawing :=
  [0, 1, 2, 3, 4, 5, 6, 7].foldl (drawBit px r b) d

/-- The rows of a sprite from row `row` down, one byte a row. -/
def drawRows (px py : Byte) (row : Nat) : List Byte → Drawing → Drawing
  | [], d => d
  | b :: bs, d => drawRows px py (row + 1) bs (drawRow px (wrapRow py row) b d)

/-- `DrawSprite(sprite, px, py)`. -/
def drawSprite (fb : Framebuffer) (sprite : List Byte) (px py : Byte) : Drawing :=
  drawRows px py 0 sprite { fb := fb, collision := false }

/-- `FB <- fb`. -/
def State.setFb (s : State) (fb : Framebuffer) : State := { s with fb := fb }

/-! ## Timers and the random port -/

/-- A timer loses 1 while it is above 0 (10_state.md R26). -/
def tickTimer (b : Byte) : Byte := if b = 0 then 0 else b - 1

/-- The timer tick; the two timers are independent (40_cycle.md R126). -/
def State.tick (s : State) : State := { s with dt := tickTimer s.dt, st := tickTimer s.st }

/-- `RND`: the byte this execution of RANDOM draws, a free value (42_register_alu.md R172). -/
def State.rnd (s : State) : Byte := Config.randomByte s.random.source s.random.draws

/-- The port `RND` in another position; the block is not touched (10_state.md R32). -/
def State.setRandom (s : State) (p : RandomPort) : State := { s with random := p }

/-- The port after a draw: it presents a fresh byte of the same source (42_register_alu.md R172). -/
def RandomPort.next (p : RandomPort) : RandomPort := { p with draws := p.draws + 1 }

/-- The byte drawn is used up: the next RANDOM draws a fresh one (42_register_alu.md R172). -/
def State.drawn (s : State) : State := s.setRandom s.random.next

/-! ## What the host writes -/

/-- Reset at any moment: the whole block is as after power-on (70_reset_and_hazards.md R290). The port
`RND` is no state of the block and goes on with fresh bytes (log entry 1). -/
def State.restart (s : State) : State := { s with toBlock := Block.reset }

/-- The host sets `KEY` between two cycles (10_state.md R31, 45_keypad_timers.md R230). -/
def State.setKey (s : State) (k : Option Byte) : State := { s with key := k }

/-- The host's duty before launch: reset, then the ROM bytes in file order from 0x200 on
(70_reset_and_hazards.md R292, R294). The bytes go to the block that this same reset has just made, never
to a block that has run or halted: the host has no memory move after launch (20_memory.md R74). A byte at
4096 or beyond fails the bounds check like any other write (20_memory.md R75); that the failed write is
latched is the model's reading (log entry 11). -/
def State.launch (s : State) (rom : List Byte) : Result :=
  writeRange s.restart Config.programStart rom

/-- The state with an opcode's two bytes where `fetch` reads its next instruction, high byte first;
unchanged where there are no such two cells. No move of the host: it is how tests place an instruction
(log entry 10). -/
def State.placeOpcode (s : State) (op : Word) : State :=
  if s.pc.toNat + 1 < Config.memSize then
    (s.setByte s.pc.toNat (highByte op)).setByte (s.pc.toNat + 1) (lowByte op)
  else s

end Sys2Proof.Machine
end

