-- ==== Sys2Proof/Machine/Operands.lean ====
section
/-! DEFINITION. The operand forms (30_encoding.md R93; 43_index_memory.md, head): registers by a 4-bit
field, unsigned immediates used as they are, and the one addressing mode `I + j`. -/

namespace Sys2Proof.Machine

/-- The 12-bit immediate zero-extended to the 16 bits of `pc` or `I` (30_encoding.md R93). -/
def zextAddr (nnn : Addr12) : Word := nnn.setWidth 16

/-- The effective address `I + j`: the plain unsigned sum, never masked (20_memory.md R63). -/
def effectiveAddr (s : State) (j : Nat) : Nat := s.index.toNat + j

/-- The registers `V0` to `Vx` in ascending order, both ends included
(43_index_memory.md R194, R195). -/
def regsUpTo (x : RegIndex) : List RegIndex := (List.range (x.toNat + 1)).map (BitVec.ofNat 4)

/-- The address of the glyph of a hexadecimal digit: `0x050 + 5 * d`, computed and not read from
memory (43_index_memory.md R192). -/
def glyphAddr (d : Byte) : Word := BitVec.ofNat 16 (Config.fontBase + Config.glyphBytes * d.toNat)

/-- The decimal digits BCD writes, most significant first: always three, or, under the switch's other
value, as many as the number has (43_index_memory.md R193, 92_eei_decisions.md D12). -/
def bcdDigits (fixed3 : Bool) (b : Byte) : List Byte :=
  let hundreds : Byte := BitVec.ofNat 8 (b.toNat / 100)
  let tens : Byte := BitVec.ofNat 8 (b.toNat / 10 % 10)
  let ones : Byte := BitVec.ofNat 8 (b.toNat % 10)
  if fixed3 ∨ 100 ≤ b.toNat then [hundreds, tens, ones]
  else if 10 ≤ b.toNat then [tens, ones]
  else [ones]

/-- `KEY = Some k` with `k` equal to a register's value; no value equals "no key"
(45_keypad_timers.md R231). -/
def keyIs (s : State) (b : Byte) : Bool := s.key == some b

end Sys2Proof.Machine
end

