-- ==== Sys2Proof/Machine/Flags.lean ====
section
/-! DEFINITION. The flag computations: what the six instructions of 10_state.md R22 write to `VF`. The
conditions are the source's literal ones (90_conflicts.md C2, C3, C4), not the commonly known ones. -/

namespace Sys2Proof.Machine

/-- `(c ? 1 : 0)`. -/
def flagByte (c : Bool) : Byte := if c then 1 else 0

/-- The exact sum `total`, 0 to 510 (42_register_alu.md R167). -/
def exactSum (a b : Byte) : Nat := a.toNat + b.toNat

/-- ADD_VY's flag: `total >= CARRY_THRESHOLD` (42_register_alu.md R167). -/
def sumFlag (threshold : Nat) (a b : Byte) : Byte := flagByte (decide (threshold ≤ exactSum a b))

/-- SUB_VY's and SUBN's flag: the minuend is strictly greater (42_register_alu.md R168, R170). -/
def greaterFlag (minuend subtrahend : Byte) : Byte := flagByte (decide (subtrahend < minuend))

/-- SHIFT_RIGHT's flag: bit 0 of the old `V[x]` (42_register_alu.md R169). -/
def lowBitFlag (a : Byte) : Byte := a &&& 1

/-- SHIFT_LEFT's flag: bit 7 of the old `V[x]` (42_register_alu.md R171). -/
def highBitFlag (a : Byte) : Byte := (a >>> 7) &&& 1

end Sys2Proof.Machine
end

