-- ==== Sys2Proof/Machine/ControlTransfer.lean ====
section
/-! DEFINITION. Control transfer (41_control_transfer.md): RETURN, JUMP, CALL and the register skips.
Each meaning is the `Execute` step of 40_cycle.md R129, run after fetch has made `pc = a + 2`. -/

namespace Sys2Proof.Machine

/-- The skips: `pc <- pc + 2` on top of fetch's advance when the condition holds
(41_control_transfer.md R147). -/
def skipIf (c : Bool) (s : State) : Result := .next (if c then s.setPc (s.pc + 2) else s)

/-- RETURN (41_control_transfer.md R140); `x` is ignored. `SP` 0 raises StackUnderflow before any
change, and depth `k + 1` returns through slot `k + 1`. -/
def execRet (_x : RegIndex) (s : State) : Result :=
  match s.sp with
  | ⟨0, _⟩ => raise .stackUnderflow s
  | ⟨k + 1, h⟩ => .next (s.pop ⟨k, Nat.lt_of_succ_lt_succ h⟩)

/-- JUMP (41_control_transfer.md R141). -/
def execJump (nnn : Addr12) (s : State) : Result := .next (s.setPc (zextAddr nnn))

/-- CALL (41_control_transfer.md R142): `SP` 16 raises StackOverflow before any change; the `pc` saved
is the advanced one. -/
def execCall (nnn : Addr12) (s : State) : Result :=
  if h : s.sp.val < Config.stackDepth then .next ((s.push ⟨s.sp.val, h⟩).setPc (zextAddr nnn))
  else raise .stackOverflow s

/-- SKIP_IF_VX_NN_EQ (41_control_transfer.md R143). -/
def execSkipIfVxNnEq (x : RegIndex) (nn : Byte) (s : State) : Result := skipIf (s.reg x == nn) s

/-- SKIP_IF_VX_NN_NEQ (41_control_transfer.md R144). -/
def execSkipIfVxNnNeq (x : RegIndex) (nn : Byte) (s : State) : Result := skipIf (s.reg x != nn) s

/-- SKIP_IF_VX_VY_EQ (41_control_transfer.md R145). -/
def execSkipIfVxVyEq (x y : RegIndex) (s : State) : Result := skipIf (s.reg x == s.reg y) s

/-- SKIP_IF_VX_VY_NEQ (41_control_transfer.md R146). -/
def execSkipIfVxVyNeq (x y : RegIndex) (s : State) : Result := skipIf (s.reg x != s.reg y) s

end Sys2Proof.Machine
end

