-- ==== Sys2Proof/Machine/Display.lean ====
section
/-! DEFINITION. The display instructions (44_display.md). -/

namespace Sys2Proof.Machine

/-- CLEAR_SCREEN (44_display.md R212); `x` is ignored and `VF` unchanged. -/
def execClearScreen (_x : RegIndex) (s : State) : Result := .next (s.setFb Framebuffer.clear)

/-- DISPLAY (44_display.md R213): all `n` sprite bytes are read before any pixel changes, the
coordinates are the registers before `VF` is written, and `VF` is written last. -/
def execDisplay (x y : RegIndex) (n : BitVec 4) (s : State) : Result :=
  match readRange s (effectiveAddr s 0) n.toNat with
  | .error f => raise f s
  | .ok sprite =>
    let d := drawSprite s.fb sprite (s.reg x) (s.reg y)
    .next ((s.setFb d.fb).setFlag (flagByte d.collision))

end Sys2Proof.Machine
end

