-- ==== Sys2Proof/Machine/IndexMemory.lean ====
section
/-! DEFINITION. Index register and memory instructions (43_index_memory.md). No memory access changes
`I` (R196). -/

namespace Sys2Proof.Machine

/-- SET_INDEX (43_index_memory.md R190). -/
def execSetIndex (nnn : Addr12) (s : State) : Result := .next (s.setIndex (zextAddr nnn))

/-- ADD_VX_TO_INDEX (43_index_memory.md R191): not masked to 12 bits; an exact sum above 0xFFFF raises
IndexOverflow with `I` unchanged; `VF` is never written. -/
def execAddVxToIndex (x : RegIndex) (s : State) : Result :=
  let sum := s.index.toNat + (s.reg x).toNat
  if sum > 0xFFFF then raise (.indexOverflow (BitVec.ofNat 17 sum)) s
  else .next (s.setIndex (BitVec.ofNat 16 sum))

/-- FONT (43_index_memory.md R192): a value above 0xF raises InvalidFontDigit with `I` unchanged. -/
def execFont (x : RegIndex) (s : State) : Result :=
  if (s.reg x).toNat > 0xF then raise (.invalidFontDigit (s.reg x)) s
  else .next (s.setIndex (glyphAddr (s.reg x)))

/-- BCD (43_index_memory.md R193): hundreds, tens, ones at `I`, `I + 1`, `I + 2`. -/
def execBcd (x : RegIndex) (s : State) : Result :=
  writeRange s (effectiveAddr s 0) (bcdDigits Config.bcdFixed3 (s.reg x))

/-- LOAD_REGISTERS (43_index_memory.md R194): registers `V0` to `Vx` to memory at `I`. -/
def execLoadRegisters (x : RegIndex) (s : State) : Result :=
  writeRange s (effectiveAddr s 0) ((regsUpTo x).map s.reg)

/-- STORE_REGISTERS (43_index_memory.md R195): registers `V0` to `Vx` from memory at `I`. -/
def execStoreRegisters (x : RegIndex) (s : State) : Result :=
  loadRegsFrom (effectiveAddr s 0) (regsUpTo x) s

end Sys2Proof.Machine
end

