-- ==== Sys2Proof/Machine/KeypadTimers.lean ====
section
/-! DEFINITION. Key port and timer instructions (45_keypad_timers.md). The countdown of the timers is
the tick that ends the cycle (Machine/Cycle.lean). -/

namespace Sys2Proof.Machine

/-- SKIP_IF_KEY_EQ (45_keypad_timers.md R231): with no key held nothing is skipped. -/
def execSkipIfKeyEq (x : RegIndex) (s : State) : Result := skipIf (keyIs s (s.reg x)) s

/-- SKIP_IF_KEY_NEQ (45_keypad_timers.md R232): with no key held the skip is always taken. -/
def execSkipIfKeyNeq (x : RegIndex) (s : State) : Result := skipIf (!keyIs s (s.reg x)) s

/-- WAIT_FOR_KEY (45_keypad_timers.md R233): with no key held `pc` goes back to this opcode's own
address, and with a key all 8 bits of it are stored. -/
def execWaitForKey (x : RegIndex) (s : State) : Result :=
  match s.key with
  | none => .next (s.setPc (s.pc - 2))
  | some k => .next (s.setReg x k)

/-- SET_DELAY_FROM_VX (45_keypad_timers.md R234); the cycle's tick follows. -/
def execSetDelayFromVx (x : RegIndex) (s : State) : Result := .next (s.setDt (s.reg x))

/-- SET_SOUND_FROM_VX (45_keypad_timers.md R235); the cycle's tick follows. -/
def execSetSoundFromVx (x : RegIndex) (s : State) : Result := .next (s.setSt (s.reg x))

/-- SET_VX_FROM_DELAY (45_keypad_timers.md R236): `DT` before this cycle's tick. -/
def execSetVxFromDelay (x : RegIndex) (s : State) : Result := .next (s.setReg x s.dt)

end Sys2Proof.Machine
end

