-- ==== Sys2Proof/Machine/RegisterAlu.lean ====
section
/-! DEFINITION. Register and arithmetic/logic instructions (42_register_alu.md). The statements of an
effect run in the order written, and each reads the registers as the ones before it left them
(40_cycle.md R125): that order decides every case in which `x` or `y` is 0xF. -/

namespace Sys2Proof.Machine

/-- SET_REGISTER (42_register_alu.md R161). -/
def execSetRegister (x : RegIndex) (nn : Byte) (s : State) : Result := .next (s.setReg x nn)

/-- ADD (42_register_alu.md R162): wraps, and writes no flag. -/
def execAdd (x : RegIndex) (nn : Byte) (s : State) : Result := .next (s.setReg x (s.reg x + nn))

/-- SET_VX (42_register_alu.md R163). -/
def execSetVx (x y : RegIndex) (s : State) : Result := .next (s.setReg x (s.reg y))

/-- OR (42_register_alu.md R164): `VF` is not touched. -/
def execOr (x y : RegIndex) (s : State) : Result := .next (s.setReg x (s.reg x ||| s.reg y))

/-- AND (42_register_alu.md R165): `VF` is not touched. -/
def execAnd (x y : RegIndex) (s : State) : Result := .next (s.setReg x (s.reg x &&& s.reg y))

/-- XOR (42_register_alu.md R166): `VF` is not touched. -/
def execXor (x y : RegIndex) (s : State) : Result := .next (s.setReg x (s.reg x ^^^ s.reg y))

/-- ADD_VY (42_register_alu.md R167): the sum is written first and the flag last, both from the old
operands. -/
def execAddVy (x y : RegIndex) (s : State) : Result :=
  let s1 := s.setReg x (s.reg x + s.reg y)
  .next (s1.setFlag (sumFlag Config.carryThreshold (s.reg x) (s.reg y)))

/-- SUB_VY (42_register_alu.md R168): the flag is written first, and the subtraction then reads the
registers. -/
def execSubVy (x y : RegIndex) (s : State) : Result :=
  let s1 := s.setFlag (greaterFlag (s.reg x) (s.reg y))
  .next (s1.setReg x (s1.reg x - s1.reg y))

/-- SHIFT_RIGHT (42_register_alu.md R169): the flag comes from `V[x]`, the shifted value from `V[y]`
as the flag's write left it. -/
def execShiftRight (x y : RegIndex) (s : State) : Result :=
  let s1 := s.setFlag (lowBitFlag (s.reg x))
  .next (s1.setReg x (s1.reg y >>> 1))

/-- SUBN (42_register_alu.md R170): the flag is written first, and the subtraction then reads the
registers. -/
def execSubn (x y : RegIndex) (s : State) : Result :=
  let s1 := s.setFlag (greaterFlag (s.reg y) (s.reg x))
  .next (s1.setReg x (s1.reg y - s1.reg x))

/-- SHIFT_LEFT (42_register_alu.md R171): the flag comes from `V[x]`, the shifted value from `V[y]`
as the flag's write left it. -/
def execShiftLeft (x y : RegIndex) (s : State) : Result :=
  let s1 := s.setFlag (highBitFlag (s.reg x))
  .next (s1.setReg x (s1.reg y <<< 1))

/-- RANDOM (42_register_alu.md R172): the byte drawn is a free value, a fresh one each time. -/
def execRandom (x : RegIndex) (nn : Byte) (s : State) : Result :=
  .next ((s.setReg x (s.rnd &&& nn)).drawn)

end Sys2Proof.Machine
end

