-- ==== Sys2Proof/Machine/Dispatch.lean ====
section
/-! DEFINITION. Dispatch on the operation type (40_cycle.md R125): one arm per row of
spec/opcode_table.json, in the table's order. -/

namespace Sys2Proof.Machine

-- The Execute step of 40_cycle.md R129: the effect of one instruction, without the timer tick.
def exec (i : Instr) (s : State) : Host.Outcome State Fault Refusal :=
  match i with
  | .clearScreen x => Sys2Proof.Machine.execClearScreen x s
  | .ret x => Sys2Proof.Machine.execRet x s
  | .jump nnn => Sys2Proof.Machine.execJump nnn s
  | .call nnn => Sys2Proof.Machine.execCall nnn s
  | .skipIfVxNnEq x nn => Sys2Proof.Machine.execSkipIfVxNnEq x nn s
  | .skipIfVxNnNeq x nn => Sys2Proof.Machine.execSkipIfVxNnNeq x nn s
  | .skipIfVxVyEq x y => Sys2Proof.Machine.execSkipIfVxVyEq x y s
  | .setRegister x nn => Sys2Proof.Machine.execSetRegister x nn s
  | .add x nn => Sys2Proof.Machine.execAdd x nn s
  | .setVx x y => Sys2Proof.Machine.execSetVx x y s
  | .or x y => Sys2Proof.Machine.execOr x y s
  | .and x y => Sys2Proof.Machine.execAnd x y s
  | .xor x y => Sys2Proof.Machine.execXor x y s
  | .addVy x y => Sys2Proof.Machine.execAddVy x y s
  | .subVy x y => Sys2Proof.Machine.execSubVy x y s
  | .shiftRight x y => Sys2Proof.Machine.execShiftRight x y s
  | .subn x y => Sys2Proof.Machine.execSubn x y s
  | .shiftLeft x y => Sys2Proof.Machine.execShiftLeft x y s
  | .skipIfVxVyNeq x y => Sys2Proof.Machine.execSkipIfVxVyNeq x y s
  | .setIndex nnn => Sys2Proof.Machine.execSetIndex nnn s
  | .random x nn => Sys2Proof.Machine.execRandom x nn s
  | .display x y n => Sys2Proof.Machine.execDisplay x y n s
  | .skipIfKeyEq x => Sys2Proof.Machine.execSkipIfKeyEq x s
  | .skipIfKeyNeq x => Sys2Proof.Machine.execSkipIfKeyNeq x s
  | .setVxFromDelay x => Sys2Proof.Machine.execSetVxFromDelay x s
  | .waitForKey x => Sys2Proof.Machine.execWaitForKey x s
  | .setDelayFromVx x => Sys2Proof.Machine.execSetDelayFromVx x s
  | .setSoundFromVx x => Sys2Proof.Machine.execSetSoundFromVx x s
  | .addVxToIndex x => Sys2Proof.Machine.execAddVxToIndex x s
  | .font x => Sys2Proof.Machine.execFont x s
  | .bcd x => Sys2Proof.Machine.execBcd x s
  | .loadRegisters x => Sys2Proof.Machine.execLoadRegisters x s
  | .storeRegisters x => Sys2Proof.Machine.execStoreRegisters x s

end Sys2Proof.Machine
end

