-- ==== Sys2Proof/Machine/Cycle.lean ====
section
/-! DEFINITION. The fetch-decode-execute cycle (40_cycle.md R129) around `exec`. -/

namespace Sys2Proof.Machine

/-- The opcode at `pc`: two byte reads in order, big-endian; either can raise, and `pc` is not yet
advanced then (40_cycle.md R122, 20_memory.md R64). -/
def fetchOpcode (s : State) : Except Fault Word :=
  match memRead s s.pc.toNat with
  | .error f => .error f
  | .ok hi =>
    match memRead s (s.pc.toNat + 1) with
    | .error f => .error f
    | .ok lo => .ok (opcodeOf hi lo)

/-- Whether an instruction's cycle is a waiting cycle: WAIT_FOR_KEY with no key held
(40_cycle.md R128). The state keeps no waiting flag (10_state.md R36). -/
def waits (i : Instr) (s : State) : Bool := i.opType == .waitForKey && s.key.isNone

/-- The end of a cycle: the timers tick unless the effect raised a fault, or the cycle waits and the
switch says that a waiting cycle does not tick (40_cycle.md R126 to R129). -/
def endCycle (waitTicks waiting : Bool) (t : State) : State :=
  if t.fault.valid || (waiting && !waitTicks) then t else t.tick

/-- The end of a cycle for whatever `exec` answered. -/
def finish (waiting : Bool) : Result → Result
  | .next t => .next (endCycle Config.waitTicksTimers waiting t)
  | .fault f => .fault f
  | .refused r => .refused r

/-- Classify and execute the opcode fetched, `s` being the state with `pc` already advanced
(40_cycle.md R123 to R125). -/
def runOpcode (op : Word) (s : State) : Result :=
  match decodeWord op with
  | none => raise (.unhandledOperation op) s
  | some i => finish (waits i s) (exec i s)

/-- One cycle of a block that is not halted (40_cycle.md R129). -/
def cycle (s : State) : Result :=
  match fetchOpcode s with
  | .error f => raise f s
  | .ok op => runOpcode op s.advancePc

end Sys2Proof.Machine
end

