-- ==== Sys2Proof/Machine/Step.lean ====
section
/-! DEFINITION. One step is one cycle request (40_cycle.md R120, R121), and the placing of an
instruction where the next step fetches it. -/

namespace Sys2Proof.Machine

/-- A cycle request: it changes nothing while a fault is latched (40_cycle.md R121). -/
def step (s : State) : Host.Outcome State Fault Refusal :=
  if s.fault.valid then .next s else cycle s

/-- `s` with the instruction whose bits are `w` (numbered as spec/opcode_table.json numbers them) in
the two cells at `pc`, where the next step fetches it. -/
def State.withFetchWord (s : State) (nbits w : Nat) : State := s.placeOpcode (tableOpcode nbits w)

end Sys2Proof.Machine
end

