-- ==== Sys2Proof/Machine/HostPort.lean ====
section
/-! DEFINITION. What the host does to the block through its ports (60_exceptions.md R266,
70_reset_and_hazards.md R294). Reading `FB` and `FAULT` changes nothing and is a read of the state;
the port `RND` is the model's free value. -/

namespace Sys2Proof.Machine

/-- The moves of the host. A write of memory or of any other state after launch, a change of `KEY` during
a cycle and a resume after a fault are rows of kind "never" (70_reset_and_hazards.md R294): there is no
such move. The port for loading memory is part of `launch` alone, behind its reset (60_exceptions.md R266,
20_memory.md R74, 10_state.md R38). -/
inductive HostMove where
  /-- Reset with nothing loaded after it (70_reset_and_hazards.md R290). -/
  | reset
  /-- Reset, then the ROM load: the duty before launch (70_reset_and_hazards.md R292, R294). -/
  | launch (rom : List Byte)
  /-- A key down (`some`) or a key up (`none`) between two cycles (45_keypad_timers.md R230). -/
  | setKey (k : Option Byte)
  /-- A cycle request (40_cycle.md R120). -/
  | cycle
  deriving DecidableEq, Repr

/-- The block after one move of the host. -/
def hostMove (m : HostMove) (s : State) : Result :=
  match m with
  | .reset => .next s.restart
  | .launch rom => s.launch rom
  | .setKey k => .next (s.setKey k)
  | .cycle => step s

/-- The block after a list of moves, stopping at the first answer that is no next state. -/
def hostMoves : List HostMove → State → Result
  | [], s => .next s
  | m :: ms, s =>
    match hostMove m s with
    | .next t => hostMoves ms t
    | .fault f => .fault f
    | .refused r => .refused r

end Sys2Proof.Machine
end

