-- ==== Sys2Proof/Safety.lean ====
section
/-! DEFINITION. The terms claims are stated in: what an instruction may change (frames and the access
matrix of 10_state.md R34), what a legal state is, which states a host can bring about, and the ends of
a run (70_reset_and_hazards.md R301). -/

namespace Sys2Proof.Machine

/-! ## Frames -/

/-- The pieces of state a frame names (10_state.md R20), memory byte by byte. -/
inductive Part where
  | reg (i : RegIndex)
  | pc
  | index
  | slot (k : Fin 16)
  | sp
  | dt
  | st
  | byte (a : Nat)
  | fb
  | fault
  | key
  | random
  deriving DecidableEq, Repr

/-- Every piece of state that is not in the list is the same in both states; memory is read one byte
at a time, at every address. -/
structure SameBut (changed : List Part) (s t : State) : Prop where
  regs  : ∀ i, Part.reg i ∉ changed → t.reg i = s.reg i
  pc    : Part.pc ∉ changed → t.pc = s.pc
  index : Part.index ∉ changed → t.index = s.index
  slots : ∀ k, Part.slot k ∉ changed → t.slot k = s.slot k
  sp    : Part.sp ∉ changed → t.sp = s.sp
  dt    : Part.dt ∉ changed → t.dt = s.dt
  st    : Part.st ∉ changed → t.st = s.st
  bytes : ∀ a, Part.byte a ∉ changed → t.byteAt a = s.byteAt a
  fb    : Part.fb ∉ changed → t.fb = s.fb
  fault : Part.fault ∉ changed → t.fault = s.fault
  key   : Part.key ∉ changed → t.key = s.key
  random : Part.random ∉ changed → t.random = s.random

/-- The bytes at `I`, `I + 1`, ..., `I + n - 1` that exist. -/
def bytesAtIndex (s : State) (n : Nat) : List Part :=
  (List.range n).map fun j => Part.byte (effectiveAddr s j)

/-- The registers `V0` to `Vx`. -/
def regParts (x : RegIndex) : List Part := (regsUpTo x).map Part.reg

/-- `STACK[SP + 1]` of a state whose stack is not full: the slot a CALL writes. -/
def nextSlot (s : State) : List Part :=
  if h : s.sp.val < 16 then [Part.slot ⟨s.sp.val, h⟩] else []

/-- The column "Writes" of 10_state.md R34, with the fault latch for the instructions that can raise a
fault (60_exceptions.md R250) and, for RANDOM, the port's position (log entry 1). Beyond it an instruction
changes nothing in `exec`; fetch's advance of `pc` and the tick are the cycle's. -/
def mayWrite (i : Instr) (s : State) : List Part :=
  match i with
  | .clearScreen _ => [.fb]
  | .ret _ => [.pc, .sp, .fault]
  | .jump _ => [.pc]
  | .call _ => [.pc, .sp, .fault] ++ nextSlot s
  | .skipIfVxNnEq _ _ => [.pc]
  | .skipIfVxNnNeq _ _ => [.pc]
  | .skipIfVxVyEq _ _ => [.pc]
  | .setRegister x _ => [.reg x]
  | .add x _ => [.reg x]
  | .setVx x _ => [.reg x]
  | .or x _ => [.reg x]
  | .and x _ => [.reg x]
  | .xor x _ => [.reg x]
  | .addVy x _ => [.reg x, .reg flagIndex]
  | .subVy x _ => [.reg x, .reg flagIndex]
  | .shiftRight x _ => [.reg x, .reg flagIndex]
  | .subn x _ => [.reg x, .reg flagIndex]
  | .shiftLeft x _ => [.reg x, .reg flagIndex]
  | .skipIfVxVyNeq _ _ => [.pc]
  | .setIndex _ => [.index]
  | .random x _ => [.reg x, .random]
  | .display _ _ _ => [.fb, .reg flagIndex, .fault]
  | .skipIfKeyEq _ => [.pc]
  | .skipIfKeyNeq _ => [.pc]
  | .setVxFromDelay x => [.reg x]
  | .waitForKey x => [.reg x, .pc]
  | .setDelayFromVx _ => [.dt]
  | .setSoundFromVx _ => [.st]
  | .addVxToIndex _ => [.index, .fault]
  | .font _ => [.index, .fault]
  | .bcd _ => .fault :: bytesAtIndex s 3
  | .loadRegisters x => .fault :: bytesAtIndex s (x.toNat + 1)
  | .storeRegisters x => .fault :: regParts x

/-! ## Legal states -/

/-- What the latch can hold (60_exceptions.md R250): nothing, or one of the six faults that can be
raised with an `info` in its range; code 3 never. -/
abbrev FaultLatch.wf (f : FaultLatch) : Prop :=
  if f.valid then
    (f.code = 1 ∧ f.info ≤ 0xFFFF ∧ decodeWord (f.info.setWidth 16) = none) ∨
    (f.code = 2 ∧ 0x1000 ≤ f.info ∧ f.info ≤ 0x1000E) ∨
    (f.code = 4 ∧ f.info = 16) ∨
    (f.code = 5 ∧ f.info = 0) ∨
    (f.code = 6 ∧ 0x10000 ≤ f.info ∧ f.info ≤ 0x100FE) ∨
    (f.code = 7 ∧ 0x10 ≤ f.info ∧ f.info ≤ 0xFF)
  else f.code = 0 ∧ f.info = 0

/-- The invariant of every state a run reaches: memory in canonical form, `pc` at most 0x1002 and every
saved address at most 0x1000 (40_cycle.md R131), and a latch the fault table allows. (`SP` is at most 16
by its type.) -/
abbrev State.Inv (s : State) : Prop :=
  Memory.wf s.mem ∧ s.pc ≤ 0x1002 ∧ (∀ k, s.slot k ≤ 0x1000) ∧ s.fault.wf

/-- The states a host that keeps its duties can bring about: reset and a ROM that fits (whatever the block
held before, so also a reset in the middle of a run and another launch), then any cycle requests and any
keys between them (70_reset_and_hazards.md R294). -/
inductive Reachable : State → Prop where
  | launch {rom : List Byte} {s t : State} (fits : rom.length ≤ Config.romBound)
      (loaded : s.launch rom = .next t) : Reachable t
  | key {s : State} (k : Option Byte) (h : Reachable s) : Reachable (s.setKey k)
  | cycle {s t : State} (h : Reachable s) (stepped : step s = .next t) : Reachable t

/-! ## What a sprite covers (44_display.md R211) -/

/-- Whether some 1 bit of a sprite drawn at `(px, py)` lands on the pixel in row `r` and column `c`,
written with the rule's own numbers: byte `row` of the sprite goes to row `(py + row) mod 32`, its bit
`7 - col` to column `(px + col) mod 64`. -/
def spriteCovers (sprite : List Byte) (px py : Byte) (r : Fin 32) (c : Fin 64) : Bool :=
  (List.range sprite.length).any fun row => (List.range 8).any fun col =>
    decide ((py.toNat + row) % 32 = r.val) && decide ((px.toNat + col) % 64 = c.val) &&
      decide ((sprite.getD row 0).toNat / 2 ^ (7 - col) % 2 = 1)

/-! ## What a cycle runs -/

/-- No fault is latched: a cycle request is not ignored (40_cycle.md R121). -/
abbrev Running (s : State) : Prop := s.fault.valid = false

/-- The opcode that stands at `pc`, high byte first (20_memory.md R64). -/
def opcodeAtPc (s : State) : Word := opcodeOf (s.byteAt s.pc.toNat) (s.byteAt (s.pc.toNat + 1))

/-- Both bytes at `pc` exist and form an opcode of the instruction `i`. -/
abbrev Fetches (s : State) (i : Instr) : Prop :=
  s.pc.toNat + 1 < Config.memSize ∧ decodeWord (opcodeAtPc s) = some i

/-- Every opcode that is `m` under `mask` decodes to the instruction `mk` makes of its fields. -/
def DecodesUnder (mask m : Word) (mk : Fields → Instr) : Prop :=
  ∀ w : Word, w &&& mask = m → decodeWord w = some (mk (decodeFields w))

/-- The latch after `raise` with a code and an `info` (60_exceptions.md R261). -/
def latched (code : BitVec 3) (info : Nat) : FaultLatch :=
  { valid := true, code := code, info := BitVec.ofNat 17 info }

/-- `(a - b) mod 256` on unsigned numbers (42_register_alu.md R160). -/
def subMod (a b : Nat) : Nat := (a + 256 - b) % 256

/-! ## Reading an answer -/

/-- An answer with its next state changed. -/
def mapNext (f : State → State) : Result → Result
  | .next t => .next (f t)
  | .fault r => .fault r
  | .refused r => .refused r

/-- What a next state holds, `none` for any other answer. -/
def after {α : Type} (read : State → α) : Result → Option α
  | .next t => some (read t)
  | .fault _ => none
  | .refused _ => none

/-! ## The ends of a run (70_reset_and_hazards.md R301) -/

/-- A faulted run; never a good end. -/
abbrev Faulted (s : State) : Prop := s.fault.valid = true

/-- The run has reached the idle loop at `a`: `pc = a` and the opcode at `a` is `JUMP a`. -/
abbrev AtIdleLoop (a : Addr12) (s : State) : Prop :=
  s.pc = zextAddr a ∧ a.toNat + 1 < Config.memSize ∧
    opcodeOf (s.byteAt a.toNat) (s.byteAt (a.toNat + 1)) = encode (.jump a)

end Sys2Proof.Machine
end

