-- ==== Sys2Proof/Certificates/Slice0/Obligations.lean ====
section
/-! DEFINITION. The statements for the provers. Each says which rule of spec/ it formalises. `exec` is the
`Execute` step of 40_cycle.md R129, run after fetch has advanced `pc`; the timer tick belongs to `step`. -/

open Sys2Proof Sys2Proof.Machine

/-! ## Encoding -/

/-- Decoding the opcode of any instruction gives it back, with every operand at every value
(30_encoding.md R91, R95, R96). -/
def Obligations.DecodeOfEncodeIsIdentity : Prop :=
  ∀ i : Instr, decodeWord (encode i) = some i ∧ ∀ rest, decode (encodeBytes i ++ rest) = .ok (i, rest)

/-- Every assigned opcode is the opcode of the instruction it decodes to: no bit of it is dropped
(30_encoding.md R91, R95, R96). -/
def Obligations.EncodeOfDecodeIsIdentity : Prop :=
  ∀ (w : Word) (i : Instr), decodeWord w = some i → encode i = w

/-- The six fields are the source's bit formulas for every opcode, and overlap as they must
(30_encoding.md R91). -/
def Obligations.FieldsAreTheBitFormulas : Prop :=
  ∀ op : Word,
    let f := decodeFields op
    f.opcode = op ∧
    f.nibble.toNat = op.toNat / 4096 ∧
    f.x.toNat = op.toNat / 256 % 16 ∧
    f.y.toNat = op.toNat / 16 % 16 ∧
    f.n.toNat = op.toNat % 16 ∧
    f.nn.toNat = op.toNat % 256 ∧
    f.nnn.toNat = op.toNat % 4096 ∧
    f.wellFormed = true

/-- An opcode has an operation type exactly when it matches that type's row of 30_encoding.md R95; the
33 rows are written out from the spec, independently of the decoder's own table. -/
def Obligations.ClassificationFollowsTheRuleTable : Prop :=
  let low : List (OpType × Word × Word) :=
    [(.clearScreen, 0x00E0, 0xF0FF), (.ret, 0x00EE, 0xF0FF), (.jump, 0x1000, 0xF000),
     (.call, 0x2000, 0xF000), (.skipIfVxNnEq, 0x3000, 0xF000), (.skipIfVxNnNeq, 0x4000, 0xF000),
     (.skipIfVxVyEq, 0x5000, 0xF00F), (.setRegister, 0x6000, 0xF000), (.add, 0x7000, 0xF000)]
  let middle : List (OpType × Word × Word) :=
    [(.setVx, 0x8000, 0xF00F), (.or, 0x8001, 0xF00F), (.and, 0x8002, 0xF00F), (.xor, 0x8003, 0xF00F),
     (.addVy, 0x8004, 0xF00F), (.subVy, 0x8005, 0xF00F), (.shiftRight, 0x8006, 0xF00F),
     (.subn, 0x8007, 0xF00F), (.shiftLeft, 0x800E, 0xF00F), (.skipIfVxVyNeq, 0x9000, 0xF00F),
     (.setIndex, 0xA000, 0xF000), (.random, 0xC000, 0xF000), (.display, 0xD000, 0xF000)]
  let high : List (OpType × Word × Word) :=
    [(.skipIfKeyEq, 0xE09E, 0xF0FF), (.skipIfKeyNeq, 0xE0A1, 0xF0FF), (.setVxFromDelay, 0xF007, 0xF0FF),
     (.waitForKey, 0xF00A, 0xF0FF), (.setDelayFromVx, 0xF015, 0xF0FF), (.setSoundFromVx, 0xF018, 0xF0FF),
     (.addVxToIndex, 0xF01E, 0xF0FF), (.font, 0xF029, 0xF0FF), (.bcd, 0xF033, 0xF0FF),
     (.loadRegisters, 0xF055, 0xF0FF), (.storeRegisters, 0xF065, 0xF0FF)]
  ∀ row ∈ low ++ middle ++ high, ∀ w : Word,
    (w &&& row.2.2 = row.2.1 ↔ (decodeWord w).map Instr.opType = some row.1)

/-- The unassigned opcodes are exactly those of 30_encoding.md R97. -/
def Obligations.UnassignedOpcodesAreTheListed : Prop :=
  ∀ w : Word,
    (decodeWord w = none ↔
      let nibble := w.toNat / 4096
      let n := w.toNat % 16
      let nn := w.toNat % 256
      (nibble = 0x0 ∧ nn ∉ [0xE0, 0xEE]) ∨
      (nibble = 0x5 ∧ n ≠ 0) ∨
      (nibble = 0x8 ∧ n ∈ [0x8, 0x9, 0xA, 0xB, 0xC, 0xD, 0xF]) ∨
      (nibble = 0x9 ∧ n ≠ 0) ∨
      nibble = 0xB ∨
      (nibble = 0xE ∧ nn ∉ [0x9E, 0xA1]) ∨
      (nibble = 0xF ∧ nn ∉ [0x07, 0x0A, 0x15, 0x18, 0x1E, 0x29, 0x33, 0x55, 0x65]))

/-- The words of 30_encoding.md R104 and one word of every other row from 95_test_vectors.md section 2.1
decode to what the spec says; those of R104 come first. -/
def Obligations.SampleWordsDecode : Prop :=
  (decodeWord 0x00E0 = some (.clearScreen 0x0) ∧ decodeWord 0x00EE = some (.ret 0x0) ∧
    decodeWord 0xF01F = none ∧ decodeWord 0x600C = some (.setRegister 0x0 0x0C) ∧
    decodeWord 0x7009 = some (.add 0x0 0x09) ∧ decodeWord 0xD01F = some (.display 0x0 0x1 0xF) ∧
    decodeWord 0x2428 = some (.call 0x428) ∧ decodeWord 0x01E0 = some (.clearScreen 0x1) ∧
    decodeWord 0x5120 = some (.skipIfVxVyEq 0x1 0x2) ∧ decodeWord 0x5121 = none ∧
    decodeWord 0xB300 = none ∧ decodeWord 0x0000 = none ∧ decodeWord 0x8AB8 = none ∧
    decodeWord 0x8ABE = some (.shiftLeft 0xA 0xB)) ∧
  (decodeWord 0x1FFF = some (.jump 0xFFF) ∧ decodeWord 0x3A7F = some (.skipIfVxNnEq 0xA 0x7F) ∧
    decodeWord 0x4A7F = some (.skipIfVxNnNeq 0xA 0x7F) ∧
    decodeWord 0x9AB0 = some (.skipIfVxVyNeq 0xA 0xB)) ∧
  (decodeWord 0x8AB0 = some (.setVx 0xA 0xB) ∧ decodeWord 0x8AB1 = some (.or 0xA 0xB) ∧
    decodeWord 0x8AB2 = some (.and 0xA 0xB) ∧ decodeWord 0x8AB3 = some (.xor 0xA 0xB) ∧
    decodeWord 0x8AB4 = some (.addVy 0xA 0xB) ∧ decodeWord 0x8AB5 = some (.subVy 0xA 0xB) ∧
    decodeWord 0x8AB6 = some (.shiftRight 0xA 0xB) ∧ decodeWord 0x8AB7 = some (.subn 0xA 0xB) ∧
    decodeWord 0xC1FF = some (.random 0x1 0xFF)) ∧
  (decodeWord 0xA123 = some (.setIndex 0x123) ∧ decodeWord 0xF11E = some (.addVxToIndex 0x1) ∧
    decodeWord 0xF129 = some (.font 0x1) ∧ decodeWord 0xF133 = some (.bcd 0x1) ∧
    decodeWord 0xF155 = some (.loadRegisters 0x1) ∧ decodeWord 0xF165 = some (.storeRegisters 0x1)) ∧
  (decodeWord 0xE19E = some (.skipIfKeyEq 0x1) ∧ decodeWord 0xE1A1 = some (.skipIfKeyNeq 0x1) ∧
    decodeWord 0xF107 = some (.setVxFromDelay 0x1) ∧ decodeWord 0xF10A = some (.waitForKey 0x1) ∧
    decodeWord 0xF115 = some (.setDelayFromVx 0x1) ∧ decodeWord 0xF118 = some (.setSoundFromVx 0x1))

/-! ## The cycle -/

/-- A step of a block that is not halted and whose opcode at `pc` decodes to `i` is `exec i` with `pc`
advanced by 2 and nothing else changed, followed by the timer tick unless the effect raised a fault or
the cycle waits for a key (40_cycle.md R122, R126 to R129). -/
def Obligations.StepRunsTheDecodedInstruction : Prop :=
  ∀ (s : State) (i : Instr), Running s → Fetches s i →
    s.advancePc.pc = s.pc + 2 ∧ SameBut [.pc] s s.advancePc ∧ s.advancePc.mem = s.mem ∧
    step s =
      match exec i s.advancePc with
      | .next t =>
        .next (if t.fault.valid = true ∨ (i.opType = .waitForKey ∧ s.key = none) then t else t.tick)
      | .fault f => .fault f
      | .refused r => .refused r

/-- Once a fault is latched, no cycle request changes anything, and no sequence of cycle requests and
key changes changes anything but the key port: the latch stays until reset (40_cycle.md R121,
60_exceptions.md R262, both a decision of the spec, D9). -/
def Obligations.FaultedBlockStaysHalted : Prop :=
  ∀ (s : State), s.fault.valid = true → step s = .next s ∧
    ∀ ms : List HostMove, (∀ m ∈ ms, m = .cycle ∨ ∃ k, m = .setKey k) →
      ∃ t, hostMoves ms s = .next t ∧ t.mem = s.mem ∧ SameBut [.key] s t

/-- A fetch whose first or second byte lies at 4096 or beyond latches OutOfBoundsMemory with the first
such address and changes nothing else: `pc` is not advanced and the timers do not tick
(60_exceptions.md R252, 40_cycle.md R131; that `pc` stays and what is recorded are decision D22). -/
def Obligations.FetchOutOfBoundsIsLatched : Prop :=
  ∀ s : State, Running s → 4096 ≤ s.pc.toNat + 1 →
    ∃ t, step s = .next t ∧
      t.fault = latched 2 (if s.pc.toNat < 4096 then 4096 else s.pc.toNat) ∧
      SameBut [.fault] s t

/-- UnhandledOperation is latched by exactly the cycles that fetch an unassigned opcode: the latch
records the opcode, `pc` is the opcode's address plus 2, and nothing else changes, the timers included
(60_exceptions.md R251). -/
def Obligations.UnassignedOpcodeIsLatched : Prop :=
  ∀ s : State, Running s →
    (s.pc.toNat + 1 < 4096 → decodeWord (opcodeAtPc s) = none →
      ∃ t, step s = .next t ∧ t.pc = s.pc + 2 ∧ t.fault = latched 1 (opcodeAtPc s).toNat ∧
        SameBut [.pc, .fault] s t) ∧
    (∀ t, step s = .next t → t.fault.valid = true → t.fault.code = 1 →
      s.pc.toNat + 1 < 4096 ∧ decodeWord (opcodeAtPc s) = none)

/-- Every step of every state, and every instruction in every state, answers a next state: nothing in
this hardware ends without one (60_exceptions.md R261, 30_encoding.md R98). -/
def Obligations.EveryStepAnswersANextState : Prop :=
  (∀ (i : Instr) (s : State), ∃ t, exec i s = .next t) ∧ ∀ s : State, ∃ t, step s = .next t

/-- From every state that meets the invariant, a step gives a state that meets it: memory stays in
canonical form, `pc` at most 0x1002, saved addresses at most 0x1000 (40_cycle.md R131), and the latch
holds what the fault table allows (60_exceptions.md R250). -/
def Obligations.StepKeepsTheInvariant : Prop :=
  ∀ s t : State, s.Inv → step s = .next t → t.Inv

/-- The state after reset meets the invariant. -/
def Obligations.ResetMeetsTheInvariant : Prop := State.reset.Inv

/-- From every state that meets the invariant, every list of moves of the host (resets, launches, keys and
cycle requests in any order; a launch is a reset and a ROM load, so no ROM is loaded after launch:
20_memory.md R74, 70_reset_and_hazards.md R294) ends in a state that meets it. The ROM may be longer than
the host's duty allows; that the block then latches the write that does not fit is the MODEL'S reading
(log entry 11). -/
def Obligations.HostMovesKeepTheInvariant : Prop :=
  ∀ (ms : List HostMove) (s : State), s.Inv → ∃ t, hostMoves ms s = .next t ∧ t.Inv

/-- Every state a host that keeps its duties can bring about meets the invariant: after any launch of a ROM
that fits, the block in whatever state before, and any cycle requests and keys, `pc` is at most 0x1002
and every saved address at most 0x1000 (40_cycle.md R131, 95_test_vectors.md Q3), the latch holds what the
fault table allows (60_exceptions.md R250), and memory has its canonical form. -/
def Obligations.ReachableStatesMeetTheInvariant : Prop := ∀ s : State, Reachable s → s.Inv

/-- The timers over a whole cycle: each loses 1 while above 0, counted from the value the instruction
wrote if it wrote one; they stand still in a cycle that faults and in a cycle that waits for a key
(40_cycle.md R126 to R128, 45_keypad_timers.md R237; per cycle is decision D7, the wait is D8). -/
def Obligations.TimersTickOncePerCompletedCycle : Prop :=
  ∀ (s t : State) (i : Instr), Running s → Fetches s i → step s = .next t →
    if t.fault.valid = true ∨ (i.opType = .waitForKey ∧ s.key = none) then t.dt = s.dt ∧ t.st = s.st
    else
      t.dt.toNat =
        (match i with
         | .setDelayFromVx x => (s.reg x).toNat
         | _ => s.dt.toNat) - 1 ∧
      t.st.toNat =
        (match i with
         | .setSoundFromVx x => (s.reg x).toNat
         | _ => s.st.toNat) - 1

/-- A cycle of WAIT_FOR_KEY with no key held changes nothing at all, the timers included
(40_cycle.md R128; that the tick is skipped is decision D8). -/
def Obligations.WaitingCycleIsTheIdentity : Prop :=
  ∀ (s : State) (x : RegIndex), Running s → Fetches s (.waitForKey x) → s.key = none → step s = .next s

/-- How a cycle moves `pc`, `s.pc` being the address of the opcode: the table of 40_cycle.md R130. -/
def Obligations.PcMovesAsTheTableSays : Prop :=
  ∀ s t : State, Running s → step s = .next t →
    (4096 ≤ s.pc.toNat + 1 → t.fault.valid = true ∧ t.pc = s.pc) ∧
    (s.pc.toNat + 1 < 4096 → decodeWord (opcodeAtPc s) = none →
      t.fault.valid = true ∧ t.pc = s.pc + 2) ∧
    (∀ i, Fetches s i → t.fault.valid = true → t.pc = s.pc + 2) ∧
    (∀ i, Fetches s i → t.fault.valid = false →
      match i with
      | .jump nnn => t.pc.toNat = nnn.toNat
      | .call nnn => t.pc.toNat = nnn.toNat ∧ ∀ k : Fin 16, t.sp = k.succ → t.slot k = s.pc + 2
      | .ret _ => ∀ k : Fin 16, s.sp = k.succ → t.pc = s.slot k
      | .skipIfVxNnEq x nn => t.pc = if s.reg x = nn then s.pc + 4 else s.pc + 2
      | .skipIfVxNnNeq x nn => t.pc = if s.reg x ≠ nn then s.pc + 4 else s.pc + 2
      | .skipIfVxVyEq x y => t.pc = if s.reg x = s.reg y then s.pc + 4 else s.pc + 2
      | .skipIfVxVyNeq x y => t.pc = if s.reg x ≠ s.reg y then s.pc + 4 else s.pc + 2
      | .skipIfKeyEq x => t.pc = if s.key = some (s.reg x) then s.pc + 4 else s.pc + 2
      | .skipIfKeyNeq x => t.pc = if s.key ≠ some (s.reg x) then s.pc + 4 else s.pc + 2
      | .waitForKey _ => t.pc = if s.key = none then s.pc else s.pc + 2
      | _ => t.pc = s.pc + 2)

/-! ## What no instruction does -/

/-- The column "Writes" of the access matrix (10_state.md R34): the effect of an instruction changes
nothing it does not name, the latch apart where the instruction can fault; memory byte by byte. The
position of the port `RND` is the model's own (log entry 1). -/
def Obligations.InstructionsWriteOnlyWhatTheMatrixNames : Prop :=
  ∀ (i : Instr) (s t : State), Memory.wf s.mem → exec i s = .next t → SameBut (mayWrite i s) s t

/-- Which instructions a whole cycle must have run for a piece of state to have changed: `I` only
SET_INDEX, ADD_VX_TO_INDEX and FONT; the stack only CALL and RETURN; the framebuffer only CLEAR_SCREEN
and DISPLAY; a register only one that names it or writes `VF`; `KEY` none (95_test_vectors.md Q13, Q15,
Q17; 10_state.md R29, R31). -/
def Obligations.StateChangesOnlyThroughItsWriters : Prop :=
  ∀ s t : State, step s = .next t →
    t.key = s.key ∧
    (t.index ≠ s.index → ∃ i, Fetches s i ∧ i.opType ∈ [.setIndex, .addVxToIndex, .font]) ∧
    (t.sp ≠ s.sp ∨ (∃ k, t.slot k ≠ s.slot k) → ∃ i, Fetches s i ∧ i.opType ∈ [.call, .ret]) ∧
    (t.fb ≠ s.fb → ∃ i, Fetches s i ∧ i.opType ∈ [.clearScreen, .display]) ∧
    (∀ r, t.reg r ≠ s.reg r → ∃ i, Fetches s i ∧ Part.reg r ∈ mayWrite i s)

/-- A byte of memory changes only in a cycle of BCD, at `I` to `I + 2`, or of LOAD_REGISTERS, at `I` to
`I + x`, and only below 4096 (95_test_vectors.md Q16; 20_memory.md R60). -/
def Obligations.MemoryChangesOnlyThroughItsWriters : Prop :=
  ∀ (s t : State) (a : Nat), Memory.wf s.mem → step s = .next t → t.byteAt a ≠ s.byteAt a →
    a < 4096 ∧ ∃ x,
      (Fetches s (.bcd x) ∧ s.index.toNat ≤ a ∧ a ≤ s.index.toNat + 2) ∨
      (Fetches s (.loadRegisters x) ∧ s.index.toNat ≤ a ∧ a ≤ s.index.toNat + x.toNat)

/-- The sound timer is read by no instruction: two blocks that differ in `ST` alone differ in `ST` alone
after a cycle (10_state.md R27). -/
def Obligations.SoundTimerIsNeverRead : Prop :=
  ∀ (s t : State) (b : Byte), step s = .next t →
    ∃ u, step (s.setSt b) = .next u ∧ u.mem = t.mem ∧ SameBut [.st] t u

/-- The key port is read by SKIP_IF_KEY_EQ, SKIP_IF_KEY_NEQ and WAIT_FOR_KEY only (any other instruction has
the same effect whatever key is held), and written by no instruction, those three included
(10_state.md R31). -/
def Obligations.OnlyKeyInstructionsReadTheKey : Prop :=
  (∀ (i : Instr) (s : State) (k : Option Byte),
    i.opType ∉ [.skipIfKeyEq, .skipIfKeyNeq, .waitForKey] →
    exec i (s.setKey k) = mapNext (·.setKey k) (exec i s)) ∧
  ∀ (i : Instr) (s t : State), exec i s = .next t → t.key = s.key

/-- The framebuffer is read by DISPLAY only: any other instruction has the same effect on everything
else whatever the framebuffer holds (10_state.md R29). -/
def Obligations.OnlyDisplayReadsTheFramebuffer : Prop :=
  ∀ (i : Instr) (s t : State) (fb : Framebuffer), i.opType ≠ .display → exec i s = .next t →
    ∃ u, exec i (s.setFb fb) = .next u ∧ u.mem = t.mem ∧ SameBut [.fb] t u

/-- The port `RND` is no state of the block (10_state.md R20, R32, R37): any instruction but RANDOM has the
same effect wherever the port stands and leaves it there, and RANDOM takes from it one byte, for `V[x]`,
and nothing else (42_register_alu.md R172). The form of the port is the MODEL'S (log entry 1). -/
def Obligations.OnlyRandomReadsTheRandomPort : Prop :=
  (∀ (i : Instr) (s : State) (p : RandomPort), i.opType ≠ .random →
    exec i (s.setRandom p) = mapNext (·.setRandom p) (exec i s)) ∧
  ∀ (x : RegIndex) (nn : Byte) (s : State) (p : RandomPort),
    ∃ t u, exec (.random x nn) s = .next t ∧ exec (.random x nn) (s.setRandom p) = .next u ∧
      u.toBlock = (t.setReg x (Config.randomByte p.source p.draws &&& nn)).toBlock ∧
      u.random.source = p.source ∧ u.random.draws = p.draws + 1

/-! ## Control transfer -/

/-- RETURN with something on the stack takes `pc` from slot `SP` and lowers `SP`, the slot keeping its
value; with `SP = 0` it latches StackUnderflow(0) and changes nothing else
(41_control_transfer.md R140; the fault is decision D6). -/
def Obligations.ReturnTakesTheTopSlot : Prop :=
  ∀ (x : RegIndex) (s : State),
    (∀ k : Fin 16, s.sp = k.succ →
      ∃ t, exec (.ret x) s = .next t ∧ t.pc = s.slot k ∧ t.sp = k.castSucc ∧ SameBut [.pc, .sp] s t) ∧
    (s.sp = 0 → ∃ t, exec (.ret x) s = .next t ∧ t.fault = latched 5 0 ∧ SameBut [.fault] s t)

/-- JUMP sets `pc` to `nnn` and nothing else; only from the target 0xFFF does the next fetch fault, with
OutOfBoundsMemory(0x1000) (41_control_transfer.md R141). -/
def Obligations.JumpSetsThePc : Prop :=
  DecodesUnder 0xF000 0x1000 (fun f => .jump f.nnn) ∧
  ∀ (nnn : Addr12) (s : State), ∃ t, exec (.jump nnn) s = .next t ∧ t.pc.toNat = nnn.toNat ∧
    SameBut [.pc] s t ∧
    (nnn = 0xFFF → fetchOpcode t = .error (.outOfBoundsMemory 0x1000)) ∧
    (nnn ≠ 0xFFF → ∃ op, fetchOpcode t = .ok op)

/-- CALL with a free slot raises `SP`, saves the advanced `pc` in the new top slot and jumps; with
`SP = 16` it latches StackOverflow(16) and changes nothing else
(41_control_transfer.md R142; the bound is decision D5). -/
def Obligations.CallSavesThePcAndJumps : Prop :=
  ∀ (nnn : Addr12) (s : State),
    (∀ k : Fin 16, s.sp = k.castSucc →
      ∃ t, exec (.call nnn) s = .next t ∧ t.pc.toNat = nnn.toNat ∧ t.sp = k.succ ∧ t.slot k = s.pc ∧
        SameBut [.pc, .sp, .slot k] s t) ∧
    (s.sp = Fin.last 16 →
      ∃ t, exec (.call nnn) s = .next t ∧ t.fault = latched 4 16 ∧ SameBut [.fault] s t)

/-- A RETURN that finds the stack as a CALL left it, whatever else has happened between, comes back to
the instruction after the CALL with the depth before it (41_control_transfer.md R142,
95_test_vectors.md Q4, S6). -/
def Obligations.ReturnUndoesCall : Prop :=
  ∀ (nnn : Addr12) (x : RegIndex) (s : State), s.sp ≠ Fin.last 16 →
    ∃ t, exec (.call nnn) s = .next t ∧
      ∀ t' : State, t'.sp = t.sp → t'.stack = t.stack →
        ∃ u, exec (.ret x) t' = .next u ∧ u.pc = s.pc ∧ u.sp = s.sp ∧ SameBut [.pc, .sp] t' u

/-- The four register skips add 2 to the already advanced `pc` exactly when their condition holds, and
change nothing else (41_control_transfer.md R143 to R147). -/
def Obligations.RegisterSkipsTestTheirCondition : Prop :=
  DecodesUnder 0xF000 0x3000 (fun f => .skipIfVxNnEq f.x f.nn) ∧
  DecodesUnder 0xF000 0x4000 (fun f => .skipIfVxNnNeq f.x f.nn) ∧
  DecodesUnder 0xF00F 0x5000 (fun f => .skipIfVxVyEq f.x f.y) ∧
  DecodesUnder 0xF00F 0x9000 (fun f => .skipIfVxVyNeq f.x f.y) ∧
  ∀ (x y : RegIndex) (nn : Byte) (s : State),
    (∃ t, exec (.skipIfVxNnEq x nn) s = .next t ∧ SameBut [.pc] s t ∧
      t.pc = if s.reg x = nn then s.pc + 2 else s.pc) ∧
    (∃ t, exec (.skipIfVxNnNeq x nn) s = .next t ∧ SameBut [.pc] s t ∧
      t.pc = if s.reg x = nn then s.pc else s.pc + 2) ∧
    (∃ t, exec (.skipIfVxVyEq x y) s = .next t ∧ SameBut [.pc] s t ∧
      t.pc = if s.reg x = s.reg y then s.pc + 2 else s.pc) ∧
    (∃ t, exec (.skipIfVxVyNeq x y) s = .next t ∧ SameBut [.pc] s t ∧
      t.pc = if s.reg x = s.reg y then s.pc else s.pc + 2)

/-! ## Registers and arithmetic -/

/-- SET_REGISTER writes `nn` to `V[x]` and nothing else (42_register_alu.md R161). -/
def Obligations.SetRegisterLoadsTheImmediate : Prop :=
  DecodesUnder 0xF000 0x6000 (fun f => .setRegister f.x f.nn) ∧
  ∀ (x : RegIndex) (nn : Byte) (s : State),
    ∃ t, exec (.setRegister x nn) s = .next t ∧ t.reg x = nn ∧ SameBut [.reg x] s t

/-- ADD writes the sum modulo 256 to `V[x]` and nothing else: it sets no flag
(42_register_alu.md R162). -/
def Obligations.AddWrapsAndSetsNoFlag : Prop :=
  DecodesUnder 0xF000 0x7000 (fun f => .add f.x f.nn) ∧
  ∀ (x : RegIndex) (nn : Byte) (s : State),
    ∃ t, exec (.add x nn) s = .next t ∧ (t.reg x).toNat = ((s.reg x).toNat + nn.toNat) % 256 ∧
      SameBut [.reg x] s t

/-- SET_VX copies `V[y]` to `V[x]` and changes nothing else (42_register_alu.md R163). -/
def Obligations.SetVxCopiesARegister : Prop :=
  DecodesUnder 0xF00F 0x8000 (fun f => .setVx f.x f.y) ∧
  ∀ (x y : RegIndex) (s : State),
    ∃ t, exec (.setVx x y) s = .next t ∧ t.reg x = s.reg y ∧ SameBut [.reg x] s t

/-- OR, AND and XOR work bit by bit, and touch no flag (42_register_alu.md R164, R165, R166). -/
def Obligations.LogicOperationsAreBitwise : Prop :=
  DecodesUnder 0xF00F 0x8001 (fun f => .or f.x f.y) ∧
  DecodesUnder 0xF00F 0x8002 (fun f => .and f.x f.y) ∧
  DecodesUnder 0xF00F 0x8003 (fun f => .xor f.x f.y) ∧
  ∀ (x y : RegIndex) (s : State),
    (∃ t, exec (.or x y) s = .next t ∧ SameBut [.reg x] s t ∧
      ∀ b, (t.reg x).getLsbD b = ((s.reg x).getLsbD b || (s.reg y).getLsbD b)) ∧
    (∃ t, exec (.and x y) s = .next t ∧ SameBut [.reg x] s t ∧
      ∀ b, (t.reg x).getLsbD b = ((s.reg x).getLsbD b && (s.reg y).getLsbD b)) ∧
    (∃ t, exec (.xor x y) s = .next t ∧ SameBut [.reg x] s t ∧
      ∀ b, (t.reg x).getLsbD b = ((s.reg x).getLsbD b ^^ (s.reg y).getLsbD b))

/-- ADD_VY: the sum modulo 256 in `V[x]`, then in `VF` whether the exact sum is at least 255; with
`x = 0xF` the flag is what stays (42_register_alu.md R167; the threshold is decision D24). -/
def Obligations.AddVySetsTheFlagFrom255 : Prop :=
  DecodesUnder 0xF00F 0x8004 (fun f => .addVy f.x f.y) ∧
  ∀ (x y : RegIndex) (s : State),
    let total := (s.reg x).toNat + (s.reg y).toNat
    ∃ t, exec (.addVy x y) s = .next t ∧
      (x ≠ 0xF → (t.reg x).toNat = total % 256) ∧
      (t.reg 0xF).toNat = (if total ≥ 255 then 1 else 0) ∧
      SameBut [.reg x, .reg 0xF] s t

/-- SUB_VY with every case of its table: the flag is written first, `VF = (V[x] > V[y])` strictly, and
the difference then reads the registers (42_register_alu.md R168). -/
def Obligations.SubVyByItsTable : Prop :=
  DecodesUnder 0xF00F 0x8005 (fun f => .subVy f.x f.y) ∧
  ∀ (x y : RegIndex) (s : State),
    let vx := (s.reg x).toNat
    let vy := (s.reg y).toNat
    let f := if vx > vy then 1 else 0
    ∃ t, exec (.subVy x y) s = .next t ∧ SameBut [.reg x, .reg 0xF] s t ∧
      (x ≠ 0xF → y ≠ 0xF → (t.reg 0xF).toNat = f ∧ (t.reg x).toNat = subMod vx vy) ∧
      (x = y → x ≠ 0xF → (t.reg 0xF).toNat = 0 ∧ (t.reg x).toNat = 0) ∧
      (y = 0xF → x ≠ 0xF → (t.reg 0xF).toNat = f ∧ (t.reg x).toNat = subMod vx f) ∧
      (x = 0xF → y ≠ 0xF → (t.reg 0xF).toNat = subMod f vy) ∧
      (x = 0xF → y = 0xF → (t.reg 0xF).toNat = 0)

/-- SHIFT_RIGHT with every case of its table: the flag, bit 0 of the old `V[x]`, is written first, and
`V[y] >> 1` then reads the registers (42_register_alu.md R169). -/
def Obligations.ShiftRightByItsTable : Prop :=
  DecodesUnder 0xF00F 0x8006 (fun f => .shiftRight f.x f.y) ∧
  ∀ (x y : RegIndex) (s : State),
    let vx := (s.reg x).toNat
    let vy := (s.reg y).toNat
    ∃ t, exec (.shiftRight x y) s = .next t ∧ SameBut [.reg x, .reg 0xF] s t ∧
      (x ≠ 0xF → y ≠ 0xF → (t.reg 0xF).toNat = vx % 2 ∧ (t.reg x).toNat = vy / 2) ∧
      (y = 0xF → x ≠ 0xF → (t.reg 0xF).toNat = vx % 2 ∧ (t.reg x).toNat = 0) ∧
      (x = 0xF → y ≠ 0xF → (t.reg 0xF).toNat = vy / 2) ∧
      (x = 0xF → y = 0xF → (t.reg 0xF).toNat = 0)

/-- SUBN with every case of its table: the flag is written first, `VF = (V[y] > V[x])` strictly, and
the difference then reads the registers (42_register_alu.md R170). -/
def Obligations.SubnByItsTable : Prop :=
  DecodesUnder 0xF00F 0x8007 (fun f => .subn f.x f.y) ∧
  ∀ (x y : RegIndex) (s : State),
    let vx := (s.reg x).toNat
    let vy := (s.reg y).toNat
    let f := if vy > vx then 1 else 0
    ∃ t, exec (.subn x y) s = .next t ∧ SameBut [.reg x, .reg 0xF] s t ∧
      (x ≠ 0xF → y ≠ 0xF → (t.reg 0xF).toNat = f ∧ (t.reg x).toNat = subMod vy vx) ∧
      (x = y → x ≠ 0xF → (t.reg 0xF).toNat = 0 ∧ (t.reg x).toNat = 0) ∧
      (y = 0xF → x ≠ 0xF → (t.reg 0xF).toNat = f ∧ (t.reg x).toNat = subMod f vx) ∧
      (x = 0xF → y ≠ 0xF → (t.reg 0xF).toNat = subMod vy f) ∧
      (x = 0xF → y = 0xF → (t.reg 0xF).toNat = 0)

/-- SHIFT_LEFT with every case of its table: the flag, bit 7 of the old `V[x]`, is written first, and
`V[y] << 1` modulo 256 then reads the registers (42_register_alu.md R171). -/
def Obligations.ShiftLeftByItsTable : Prop :=
  DecodesUnder 0xF00F 0x800E (fun f => .shiftLeft f.x f.y) ∧
  ∀ (x y : RegIndex) (s : State),
    let vx := (s.reg x).toNat
    let vy := (s.reg y).toNat
    ∃ t, exec (.shiftLeft x y) s = .next t ∧ SameBut [.reg x, .reg 0xF] s t ∧
      (x ≠ 0xF → y ≠ 0xF → (t.reg 0xF).toNat = vx / 128 ∧ (t.reg x).toNat = vy * 2 % 256) ∧
      (y = 0xF → x ≠ 0xF → (t.reg 0xF).toNat = vx / 128 ∧ (t.reg x).toNat = 2 * (vx / 128)) ∧
      (x = 0xF → y ≠ 0xF → (t.reg 0xF).toNat = vy * 2 % 256) ∧
      (x = 0xF → y = 0xF → (t.reg 0xF).toNat = 2 * (vx / 128))

/-- RANDOM writes the byte drawn, masked with `nn`: no bit outside the mask is set, whatever was drawn.
The byte is a free value, and the next draw of the same source is another one (42_register_alu.md R172,
decision D19; log entry 1). -/
def Obligations.RandomMasksTheDraw : Prop :=
  DecodesUnder 0xF000 0xC000 (fun f => .random f.x f.nn) ∧
  ∀ (x : RegIndex) (nn : Byte) (s : State),
    ∃ t, exec (.random x nn) s = .next t ∧
      (∀ b, (t.reg x).getLsbD b =
        ((Config.randomByte s.random.source s.random.draws).getLsbD b && nn.getLsbD b)) ∧
      t.reg x &&& ~~~nn = 0 ∧ t.random.source = s.random.source ∧
      t.random.draws = s.random.draws + 1 ∧ SameBut [.reg x, .random] s t

/-! ## Index register and memory -/

/-- SET_INDEX sets `I` to `nnn` and nothing else (43_index_memory.md R190). -/
def Obligations.SetIndexLoadsTheAddress : Prop :=
  DecodesUnder 0xF000 0xA000 (fun f => .setIndex f.nnn) ∧
  ∀ (nnn : Addr12) (s : State),
    ∃ t, exec (.setIndex nnn) s = .next t ∧ t.index.toNat = nnn.toNat ∧ SameBut [.index] s t

/-- ADD_VX_TO_INDEX sets `I` to the sum where it fits 16 bits, unmasked; a larger sum latches
IndexOverflow with the exact sum, and `I` and everything else stay. `VF` is never written
(43_index_memory.md R191; width and fault are decision D4). -/
def Obligations.AddVxToIndexNeverWraps : Prop :=
  DecodesUnder 0xF0FF 0xF01E (fun f => .addVxToIndex f.x) ∧
  ∀ (x : RegIndex) (s : State),
    let sum := s.index.toNat + (s.reg x).toNat
    (sum ≤ 0xFFFF →
      ∃ t, exec (.addVxToIndex x) s = .next t ∧ t.index.toNat = sum ∧ SameBut [.index] s t) ∧
    (0xFFFF < sum →
      ∃ t, exec (.addVxToIndex x) s = .next t ∧ t.fault = latched 6 sum ∧
        t.fault.info.toNat = sum ∧ SameBut [.fault] s t)

/-- FONT sets `I` to the address of the glyph of a hexadecimal digit; a value above 0xF latches
InvalidFontDigit with the value, and `I` and everything else stay
(43_index_memory.md R192; the fault is decision D11). -/
def Obligations.FontFindsTheGlyph : Prop :=
  DecodesUnder 0xF0FF 0xF029 (fun f => .font f.x) ∧
  ∀ (x : RegIndex) (s : State),
    ((s.reg x).toNat ≤ 0xF →
      ∃ t, exec (.font x) s = .next t ∧ t.index.toNat = 0x050 + 5 * (s.reg x).toNat ∧
        SameBut [.index] s t) ∧
    (0xF < (s.reg x).toNat →
      ∃ t, exec (.font x) s = .next t ∧ t.fault = latched 7 (s.reg x).toNat ∧ SameBut [.fault] s t)

/-- BCD writes the hundreds, tens and ones of `V[x]` at `I`, `I + 1`, `I + 2`, and nothing else; where
one of the three addresses is 4096 or more, the first such address is latched and the bytes below it
are written (43_index_memory.md R193; three bytes always is decision D12, the partial write D10). -/
def Obligations.BcdWritesThreeDigits : Prop :=
  DecodesUnder 0xF0FF 0xF033 (fun f => .bcd f.x) ∧
  ∀ (x : RegIndex) (s : State), Memory.wf s.mem →
    let v := (s.reg x).toNat
    let digit : Nat → Nat := fun j => if j = 0 then v / 100 else if j = 1 then v / 10 % 10 else v % 10
    ∃ t, exec (.bcd x) s = .next t ∧
      (∀ j, j < 3 → effectiveAddr s j < 4096 → (t.byteAt (effectiveAddr s j)).toNat = digit j) ∧
      (effectiveAddr s 2 < 4096 → SameBut (bytesAtIndex s 3) s t) ∧
      (4096 ≤ effectiveAddr s 2 →
        t.fault = latched 2 (max s.index.toNat 4096) ∧ SameBut (.fault :: bytesAtIndex s 3) s t)

/-- LOAD_REGISTERS writes `V0` to `Vx` at `I` to `I + x`, both ends included, and nothing else; where one
of the addresses is 4096 or more, the first such address is latched and the bytes below it are written.
`I` and all registers stay (43_index_memory.md R194). -/
def Obligations.LoadRegistersWritesMemory : Prop :=
  DecodesUnder 0xF0FF 0xF055 (fun f => .loadRegisters f.x) ∧
  ∀ (x : RegIndex) (s : State), Memory.wf s.mem →
    ∃ t, exec (.loadRegisters x) s = .next t ∧
      (∀ i : RegIndex, i ≤ x → effectiveAddr s i.toNat < 4096 →
        t.byteAt (effectiveAddr s i.toNat) = s.reg i) ∧
      (effectiveAddr s x.toNat < 4096 → SameBut (bytesAtIndex s (x.toNat + 1)) s t) ∧
      (4096 ≤ effectiveAddr s x.toNat →
        t.fault = latched 2 (max s.index.toNat 4096) ∧
        SameBut (.fault :: bytesAtIndex s (x.toNat + 1)) s t)

/-- STORE_REGISTERS reads `V0` to `Vx` from `I` to `I + x`, both ends included, and changes nothing else;
where one of the addresses is 4096 or more, the first such address is latched, the registers before it
are loaded and the others keep their values. `I` and memory stay (43_index_memory.md R195). -/
def Obligations.StoreRegistersReadsMemory : Prop :=
  DecodesUnder 0xF0FF 0xF065 (fun f => .storeRegisters f.x) ∧
  ∀ (x : RegIndex) (s : State),
    ∃ t, exec (.storeRegisters x) s = .next t ∧
      (∀ i : RegIndex, i ≤ x → effectiveAddr s i.toNat < 4096 →
        t.reg i = s.byteAt (effectiveAddr s i.toNat)) ∧
      (∀ i : RegIndex, 4096 ≤ effectiveAddr s i.toNat → t.reg i = s.reg i) ∧
      (effectiveAddr s x.toNat < 4096 → SameBut (regParts x) s t) ∧
      (4096 ≤ effectiveAddr s x.toNat →
        t.fault = latched 2 (max s.index.toNat 4096) ∧ SameBut (.fault :: regParts x) s t)

/-- Registers saved by LOAD_REGISTERS come back by a STORE_REGISTERS with the same `I` and `x`, whatever
has happened to the registers between (95_test_vectors.md Q20). -/
def Obligations.SavedRegistersComeBack : Prop :=
  ∀ (x : RegIndex) (s : State), Memory.wf s.mem → effectiveAddr s x.toNat < 4096 →
    ∃ t, exec (.loadRegisters x) s = .next t ∧
      ∀ t' : State, t'.mem = t.mem → t'.index = s.index →
        ∃ u, exec (.storeRegisters x) t' = .next u ∧ SameBut (regParts x) t' u ∧
          ∀ i : RegIndex, i ≤ x → u.reg i = s.reg i

/-- The digits BCD writes, read back into three registers, have the value converted
(95_test_vectors.md Q19). -/
def Obligations.BcdDigitsReadBack : Prop :=
  ∀ (x : RegIndex) (s : State), Memory.wf s.mem → effectiveAddr s 2 < 4096 →
    ∃ t u, exec (.bcd x) s = .next t ∧ exec (.storeRegisters 2) t = .next u ∧
      100 * (u.reg 0).toNat + 10 * (u.reg 1).toNat + (u.reg 2).toNat = (s.reg x).toNat ∧
      (u.reg 0).toNat ≤ 2 ∧ (u.reg 1).toNat ≤ 9 ∧ (u.reg 2).toNat ≤ 9

/-- The bounds check: an access below 4096 goes through and nothing else changes; one at 4096 or more
raises OutOfBoundsMemory with its address; a range is its single accesses in ascending order, the first
address out of bounds raises, and a range of length 0 makes no access (20_memory.md R62, R69). -/
def Obligations.AccessesAreBoundsChecked : Prop :=
  ∀ (s : State) (a : Nat) (b : Byte), Memory.wf s.mem → a ≤ 0x1000E →
    (a < 4096 → memRead s a = .ok (s.byteAt a) ∧
      ∃ t, memWrite s a b = .ok t ∧ t.byteAt a = b ∧ SameBut [.byte a] s t) ∧
    (4096 ≤ a → ∃ f, memRead s a = .error f ∧ memWrite s a b = .error f ∧ f.code = 2 ∧
      f.info.toNat = a) ∧
    (∀ n, n = 0 ∨ a + n ≤ 4096 → ∃ bs, readRange s a n = .ok bs ∧ bs.length = n ∧
      ∀ j (hj : j < bs.length), bs[j] = s.byteAt (a + j)) ∧
    (∀ n, n ≠ 0 → 4096 < a + n →
      ∃ f, readRange s a n = .error f ∧ f.code = 2 ∧ f.info.toNat = max a 4096) ∧
    (∀ bs : List Byte, ∃ t, writeRange s a bs = .next t ∧
      (∀ j (hj : j < bs.length), a + j < 4096 → t.byteAt (a + j) = bs[j]) ∧
      (bs = [] ∨ a + bs.length ≤ 4096 →
        SameBut ((List.range bs.length).map fun j => .byte (a + j)) s t) ∧
      (bs ≠ [] → 4096 < a + bs.length → t.fault = latched 2 (max a 4096) ∧
        SameBut (.fault :: (List.range bs.length).map fun j => .byte (a + j)) s t))

/-! ## Display -/

/-- CLEAR_SCREEN turns every pixel off and changes nothing else, `VF` included, for every value of the
ignored field (44_display.md R212). -/
def Obligations.ClearScreenTurnsEveryPixelOff : Prop :=
  DecodesUnder 0xF0FF 0x00E0 (fun f => .clearScreen f.x) ∧
  ∀ (x : RegIndex) (s : State),
    ∃ t, exec (.clearScreen x) s = .next t ∧ (∀ r c, t.fb.pixel r c = false) ∧ SameBut [.fb] s t

/-- DISPLAY toggles exactly the pixels that 1 bits of the `n` bytes at `I` cover, wrapped at both edges,
and sets `VF` to 1 exactly when one of them was on; nothing else changes. With `n = 0` nothing is read
(44_display.md R211, R213; decisions D20, D21). -/
def Obligations.DisplayTogglesCoveredPixels : Prop :=
  DecodesUnder 0xF000 0xD000 (fun f => .display f.x f.y f.n) ∧
  ∀ (x y : RegIndex) (n : BitVec 4) (s : State), n = 0 ∨ s.index.toNat + n.toNat ≤ 4096 →
    let sprite := (List.range n.toNat).map fun j => s.byteAt (effectiveAddr s j)
    let covers := spriteCovers sprite (s.reg x) (s.reg y)
    ∃ t, exec (.display x y n) s = .next t ∧
      (∀ r c, t.fb.pixel r c = (s.fb.pixel r c ^^ covers r c)) ∧
      ((∃ r c, covers r c = true ∧ s.fb.pixel r c = true) → t.reg 0xF = 1) ∧
      ((∀ r c, covers r c = true → s.fb.pixel r c = false) → t.reg 0xF = 0) ∧
      SameBut [.fb, .reg 0xF] s t

/-- DISPLAY with a sprite byte at 4096 or beyond latches the first such address and changes nothing
else: no pixel and not `VF` (44_display.md R213, 60_exceptions.md R252). -/
def Obligations.DisplayFaultDrawsNothing : Prop :=
  ∀ (x y : RegIndex) (n : BitVec 4) (s : State), n ≠ 0 → 4096 < s.index.toNat + n.toNat →
    ∃ t, exec (.display x y n) s = .next t ∧ t.fault = latched 2 (max s.index.toNat 4096) ∧
      SameBut [.fault] s t

/-- Drawing the same sprite at the same place again restores the framebuffer, and the second draw
collides exactly when a pixel the sprite covers was off before the first (44_display.md R211,
95_test_vectors.md Q10 in the form the rule gives; log entry 17). -/
def Obligations.DrawingTwiceRestoresTheScreen : Prop :=
  ∀ (x y : RegIndex) (n : BitVec 4) (s : State), s.index.toNat + n.toNat ≤ 4096 →
    let sprite := (List.range n.toNat).map fun j => s.byteAt (effectiveAddr s j)
    let covers := spriteCovers sprite (s.reg x) (s.reg y)
    ∃ t, exec (.display x y n) s = .next t ∧
      ∀ t' : State, t'.fb = t.fb → t'.mem = t.mem → t'.index = s.index → t'.reg x = s.reg x →
        t'.reg y = s.reg y →
        ∃ u, exec (.display x y n) t' = .next u ∧ u.fb = s.fb ∧
          (u.reg 0xF = 1 ↔ ∃ r c, covers r c = true ∧ s.fb.pixel r c = false)

/-! ## Keys and timers -/

/-- The two key skips: SKIP_IF_KEY_EQ skips exactly when a key is held and all 8 bits of `V[x]` equal it,
SKIP_IF_KEY_NEQ exactly when not; nothing but `pc` changes (45_keypad_timers.md R231, R232;
95_test_vectors.md Q12). -/
def Obligations.KeySkipsAreOpposite : Prop :=
  DecodesUnder 0xF0FF 0xE09E (fun f => .skipIfKeyEq f.x) ∧
  DecodesUnder 0xF0FF 0xE0A1 (fun f => .skipIfKeyNeq f.x) ∧
  ∀ (x : RegIndex) (s : State),
    ∃ t u, exec (.skipIfKeyEq x) s = .next t ∧ exec (.skipIfKeyNeq x) s = .next u ∧
      SameBut [.pc] s t ∧ SameBut [.pc] s u ∧
      (∀ k, s.key = some k →
        t.pc = (if s.reg x = k then s.pc + 2 else s.pc) ∧
        u.pc = (if s.reg x = k then s.pc else s.pc + 2)) ∧
      (s.key = none → t.pc = s.pc ∧ u.pc = s.pc + 2)

/-- WAIT_FOR_KEY with a key held stores all 8 bits of it in `V[x]` and changes nothing else; with none it
goes back to its own address, two below the advanced `pc`, and changes nothing else
(45_keypad_timers.md R233). -/
def Obligations.WaitForKeyStoresTheKey : Prop :=
  DecodesUnder 0xF0FF 0xF00A (fun f => .waitForKey f.x) ∧
  ∀ (x : RegIndex) (s : State),
    (∀ k, s.key = some k →
      ∃ t, exec (.waitForKey x) s = .next t ∧ t.reg x = k ∧ SameBut [.reg x] s t) ∧
    (s.key = none →
      ∃ t, exec (.waitForKey x) s = .next t ∧ t.pc + 2 = s.pc ∧ SameBut [.pc] s t)

/-- The timer moves: SET_DELAY_FROM_VX and SET_SOUND_FROM_VX write `V[x]` to their timer,
SET_VX_FROM_DELAY reads `DT` as it is before the cycle's tick; nothing else changes
(45_keypad_timers.md R234, R235, R236). -/
def Obligations.TimerMovesCopyTheirValue : Prop :=
  DecodesUnder 0xF0FF 0xF015 (fun f => .setDelayFromVx f.x) ∧
  DecodesUnder 0xF0FF 0xF018 (fun f => .setSoundFromVx f.x) ∧
  DecodesUnder 0xF0FF 0xF007 (fun f => .setVxFromDelay f.x) ∧
  ∀ (x : RegIndex) (s : State),
    (∃ t, exec (.setDelayFromVx x) s = .next t ∧ t.dt = s.reg x ∧ SameBut [.dt] s t) ∧
    (∃ t, exec (.setSoundFromVx x) s = .next t ∧ t.st = s.reg x ∧ SameBut [.st] s t) ∧
    (∃ t, exec (.setVxFromDelay x) s = .next t ∧ t.reg x = s.dt ∧ SameBut [.reg x] s t)

/-! ## Reset and the host -/

/-- The state after reset. The source gives `pc`, `I`, the empty stack and `KEY`; the zero registers,
timers, slots and framebuffer are the spec's decision D15 and the clear latch D9; the cells outside the
font read 0x00 by the MODEL'S DESIGN CHOICE for the open parameter `MEM_FILL` (log entry 2; 10_state.md
section 6). A reset from any state, a halted one included, gives that block again and leaves the port
`RND`, no state of the block, where it is (70_reset_and_hazards.md R290; log entry 1). -/
def Obligations.ResetLeavesTheseValues : Prop :=
  let s := State.reset
  s.pc = 0x200 ∧ s.index = 0 ∧ s.sp = 0 ∧ s.key = none ∧
  (∀ i, s.reg i = 0) ∧ (∀ k, s.slot k = 0) ∧ s.dt = 0 ∧ s.st = 0 ∧
  (∀ r c, s.fb.pixel r c = false) ∧
  s.fault.valid = false ∧ s.fault.code = 0 ∧ s.fault.info = 0 ∧
  (∀ a, a < 0x050 ∨ 0x09F < a → s.byteAt a = 0) ∧
  ∀ u : State, ∃ t, hostMove .reset u = .next t ∧ t.toBlock = s.toBlock ∧ t.random = u.random

/-- The font table after reset, glyph by glyph at `0x050 + 5 * d`. Glyph 1 is the source's; the other
fifteen the spec takes from general knowledge (70_reset_and_hazards.md R291; log entry 7). -/
def Obligations.ResetCopiesTheFont : Prop :=
  let glyphs : List (List Byte) :=
    [[0xF0, 0x90, 0x90, 0x90, 0xF0], [0x20, 0x60, 0x20, 0x20, 0x70], [0xF0, 0x10, 0xF0, 0x80, 0xF0],
     [0xF0, 0x10, 0xF0, 0x10, 0xF0], [0x90, 0x90, 0xF0, 0x10, 0x10], [0xF0, 0x80, 0xF0, 0x10, 0xF0],
     [0xF0, 0x80, 0xF0, 0x90, 0xF0], [0xF0, 0x10, 0x20, 0x40, 0x40]] ++
    [[0xF0, 0x90, 0xF0, 0x90, 0xF0], [0xF0, 0x90, 0xF0, 0x10, 0xF0], [0xF0, 0x90, 0xF0, 0x90, 0x90],
     [0xE0, 0x90, 0xE0, 0x90, 0xE0], [0xF0, 0x80, 0x80, 0x80, 0xF0], [0xE0, 0x90, 0x90, 0x90, 0xE0],
     [0xF0, 0x80, 0xF0, 0x80, 0xF0], [0xF0, 0x80, 0xF0, 0x80, 0x80]]
  glyphs.length = 16 ∧ ∀ d (hd : d < glyphs.length),
    readRange State.reset (0x050 + 5 * d) 5 = .ok glyphs[d]

/-- The host's launch of a block in any state, a halted one included, gives the block of reset with the
ROM's bytes in order from 0x200 and nothing else of the block changed; 3584 bytes fit, and a longer ROM
fails the bounds check at 0x1000 with the bytes below it written (70_reset_and_hazards.md R292,
20_memory.md R75; that the failed write is latched is the MODEL'S reading, log entry 11). The port `RND`,
no state of the block, stays where it is: that is the MODEL'S DESIGN CHOICE (log entry 1). -/
def Obligations.RomLoadPlacesTheBytes : Prop :=
  ∀ (rom : List Byte) (s : State),
    let written := (List.range rom.length).map fun j => Part.byte (0x200 + j)
    ∃ t, hostMove (.launch rom) s = .next t ∧ t.random = s.random ∧
      (∀ j (hj : j < rom.length), 0x200 + j < 4096 → t.byteAt (0x200 + j) = rom[j]) ∧
      (rom.length ≤ 3584 → SameBut (.random :: written) State.reset t) ∧
      (3584 < rom.length → t.fault = latched 2 0x1000 ∧
        SameBut (.random :: .fault :: written) State.reset t)

/-- A run at the idle loop stays there: a cycle changes `DT` and `ST` alone, each downward to 0
(70_reset_and_hazards.md R301, decision D23). -/
def Obligations.IdleLoopOnlyCountsDown : Prop :=
  ∀ (a : Addr12) (s : State), Running s → AtIdleLoop a s →
    ∃ t, step s = .next t ∧ Running t ∧ AtIdleLoop a t ∧
      t.dt.toNat = s.dt.toNat - 1 ∧ t.st.toNat = s.st.toNat - 1 ∧ SameBut [.dt, .st] s t
end

