-- ==== Sys2Proof/Laws/Decode.lean ====
section
/-! SUPPORT. The small lemmas of the decoder: the fields of an opcode written out by its formats
(30_encoding.md R92), what a mask test says of the fields (R94), and that no two match rules accept
one opcode (R95). -/

namespace Sys2Proof

/-! ### Fields of an opcode given by its pieces -/

/-- Formats `XY` and `XYN`. -/
theorem decodeFields_xyn (a x y n : BitVec 4) :
    decodeFields (a ++ x ++ y ++ n) =
      { opcode := a ++ x ++ y ++ n, nibble := a, x := x, y := y, n := n, nn := y ++ n,
        nnn := x ++ y ++ n } := by
  unfold decodeFields
  congr 1 <;> apply BitVec.eq_of_getLsbD_eq <;> intro i hi <;>
    rw [BitVec.getLsbD_extractLsb'] <;> repeat rw [BitVec.getLsbD_append]
  all_goals interval_cases i <;> simp

/-- Formats `FIXED`, `XNN` and `X`. -/
theorem decodeFields_xnn (a x : BitVec 4) (nn : Byte) :
    decodeFields (a ++ x ++ nn) =
      { opcode := a ++ x ++ nn, nibble := a, x := x, y := nn.extractLsb' 4 4,
        n := nn.extractLsb' 0 4, nn := nn, nnn := x ++ nn } := by
  unfold decodeFields
  congr 1 <;> apply BitVec.eq_of_getLsbD_eq <;> intro i hi <;>
    rw [BitVec.getLsbD_extractLsb'] <;> repeat rw [BitVec.getLsbD_append]
  all_goals interval_cases i <;> simp

/-- Format `NNN`. -/
theorem decodeFields_nnn (a : BitVec 4) (nnn : Addr12) :
    decodeFields (a ++ nnn) =
      { opcode := a ++ nnn, nibble := a, x := nnn.extractLsb' 8 4, y := nnn.extractLsb' 4 4,
        n := nnn.extractLsb' 0 4, nn := nnn.extractLsb' 0 8, nnn := nnn } := by
  unfold decodeFields
  congr 1 <;> apply BitVec.eq_of_getLsbD_eq <;> intro i hi <;>
    rw [BitVec.getLsbD_extractLsb'] <;> repeat rw [BitVec.getLsbD_append]
  all_goals interval_cases i <;> simp

/-! ### An opcode is its pieces -/

/-- Two concatenations of the same widths are equal only piece by piece. -/
theorem append_inj {u v : Nat} {a b : BitVec u} {n m : BitVec v} (h : a ++ n = b ++ m) :
    a = b ∧ n = m := by
  constructor <;> apply BitVec.eq_of_getLsbD_eq <;> intro i hi
  · have := congrArg (fun x => BitVec.getLsbD x (v + i)) h
    simpa [BitVec.getLsbD_append] using this
  · have := congrArg (fun x => BitVec.getLsbD x i) h
    simpa [BitVec.getLsbD_append, hi] using this

/-- An opcode is its high byte and its low byte. -/
@[simp] theorem opcodeOf_bytes (w : Word) : opcodeOf (highByte w) (lowByte w) = w := by
  apply BitVec.eq_of_getLsbD_eq
  intro i hi
  rw [opcodeOf, BitVec.getLsbD_append]
  simp only [highByte, lowByte, BitVec.getLsbD_extractLsb']
  interval_cases i <;> simp

/-- `nn` is `y` and `n`. -/
theorem nn_eq (w : Word) :
    (decodeFields w).nn = (decodeFields w).y ++ (decodeFields w).n := by
  apply BitVec.eq_of_getLsbD_eq
  intro i hi
  rw [BitVec.getLsbD_append]
  simp only [decodeFields, BitVec.getLsbD_extractLsb']
  interval_cases i <;> simp

theorem opcode_eq_xyn (w : Word) :
    w = (decodeFields w).nibble ++ (decodeFields w).x ++ (decodeFields w).y ++ (decodeFields w).n := by
  apply BitVec.eq_of_getLsbD_eq
  intro i hi
  repeat rw [BitVec.getLsbD_append]
  simp only [decodeFields, BitVec.getLsbD_extractLsb']
  interval_cases i <;> simp

theorem opcode_eq_xnn (w : Word) :
    w = (decodeFields w).nibble ++ (decodeFields w).x ++ (decodeFields w).nn := by
  apply BitVec.eq_of_getLsbD_eq
  intro i hi
  repeat rw [BitVec.getLsbD_append]
  simp only [decodeFields, BitVec.getLsbD_extractLsb']
  interval_cases i <;> simp

theorem opcode_eq_nnn (w : Word) : w = (decodeFields w).nibble ++ (decodeFields w).nnn := by
  apply BitVec.eq_of_getLsbD_eq
  intro i hi
  repeat rw [BitVec.getLsbD_append]
  simp only [decodeFields, BitVec.getLsbD_extractLsb']
  interval_cases i <;> simp

/-! ### What a mask test says of the fields -/

/-- A test under mask 0xF000 fixes `nibble`. -/
theorem nibble_of_mask {w m : Word} (h : w &&& 0xF000 = m) :
    (decodeFields w).nibble = m.extractLsb' 12 4 := by
  subst h
  apply BitVec.eq_of_getLsbD_eq
  intro i hi
  interval_cases i <;> simp [decodeFields]

/-- A test under mask 0xF00F fixes `nibble` and `n`. -/
theorem nibble_n_of_mask {w m : Word} (h : w &&& 0xF00F = m) :
    (decodeFields w).nibble = m.extractLsb' 12 4 ∧ (decodeFields w).n = m.extractLsb' 0 4 := by
  subst h
  constructor <;> apply BitVec.eq_of_getLsbD_eq <;> intro i hi <;>
    interval_cases i <;> simp [decodeFields]

/-- A test under mask 0xF0FF fixes `nibble` and `nn`. -/
theorem nibble_nn_of_mask {w m : Word} (h : w &&& 0xF0FF = m) :
    (decodeFields w).nibble = m.extractLsb' 12 4 ∧ (decodeFields w).nn = m.extractLsb' 0 8 := by
  subst h
  constructor <;> apply BitVec.eq_of_getLsbD_eq <;> intro i hi <;>
    interval_cases i <;> simp [decodeFields]

/-- Masking with 0xF000 keeps `nibble`. -/
theorem mask_nibble (w : Word) : (decodeFields w).nibble ++ 0#12 = w &&& 0xF000 := by
  apply BitVec.eq_of_getLsbD_eq
  intro i hi
  rw [BitVec.getLsbD_append]
  simp only [decodeFields, BitVec.getLsbD_extractLsb']
  interval_cases i <;> simp

/-- Masking with 0xF00F keeps `nibble` and `n`. -/
theorem mask_nibble_n (w : Word) :
    (decodeFields w).nibble ++ 0#8 ++ (decodeFields w).n = w &&& 0xF00F := by
  apply BitVec.eq_of_getLsbD_eq
  intro i hi
  repeat rw [BitVec.getLsbD_append]
  simp only [decodeFields, BitVec.getLsbD_extractLsb']
  interval_cases i <;> simp

/-- Masking with 0xF0FF keeps `nibble` and `nn`. -/
theorem mask_nibble_nn (w : Word) :
    (decodeFields w).nibble ++ 0#4 ++ (decodeFields w).nn = w &&& 0xF0FF := by
  apply BitVec.eq_of_getLsbD_eq
  intro i hi
  repeat rw [BitVec.getLsbD_append]
  simp only [decodeFields, BitVec.getLsbD_extractLsb']
  interval_cases i <;> simp

/-! ### The rule table is unambiguous (R95) -/

/-- Two rules that no opcode meets together: they differ in a field both require. -/
def MatchRule.excludes (r q : MatchRule) : Bool :=
  r.nibble != q.nibble ||
  (match r.n, q.n with
   | some a, some b => a != b
   | _, _ => false) ||
  (match r.nn, q.nn with
   | some a, some b => a != b
   | _, _ => false)

/-- Rules that exclude each other accept no opcode together. -/
theorem MatchRule.not_both {r q : MatchRule} {f : Fields} (h : r.excludes q = true)
    (hr : r.accepts f = true) (hq : q.accepts f = true) : False := by
  obtain ⟨_, a, n, nn⟩ := r
  obtain ⟨_, a', n', nn'⟩ := q
  cases n <;> cases n' <;> cases nn <;> cases nn' <;>
    simp_all [MatchRule.excludes, MatchRule.accepts]

/-- Every two rules of the table exclude each other. -/
theorem matchRules_exclude : matchRules.Pairwise (fun r q => r.excludes q = true) := by decide

/-- Where one rule of the table accepts, the first rule that accepts is that rule. -/
theorem find_of_accepts {f : Fields} {r : MatchRule} : ∀ {rules : List MatchRule},
    rules.Pairwise (fun r q => r.excludes q = true) → r ∈ rules → r.accepts f = true →
    rules.find? (·.accepts f) = some r
  | q :: rules, h, hr, ha => by
    rcases List.mem_cons.mp hr with rfl | hr
    · simp [ha]
    · have hq : q.accepts f = false := by
        by_contra hq
        exact MatchRule.not_both ((List.pairwise_cons.mp h).1 r hr) (by simpa using hq) ha
      rw [List.find?_cons_of_neg (by simp [hq])]
      exact find_of_accepts (List.pairwise_cons.mp h).2 hr ha

/-- An opcode that a rule of the table accepts is classified as that rule's operation type. -/
theorem classify_of_accepts {f : Fields} {r : MatchRule} (hr : r ∈ matchRules)
    (ha : r.accepts f = true) : classify f = some r.op := by
  rw [classify, find_of_accepts matchRules_exclude hr ha]
  rfl

/-- A classified opcode is accepted by a rule of the table with that operation type. -/
theorem accepts_of_classify {f : Fields} {t : OpType} (h : classify f = some t) :
    ∃ r ∈ matchRules, r.op = t ∧ r.accepts f = true := by
  rw [classify, Option.map_eq_some_iff] at h
  obtain ⟨r, hr, rfl⟩ := h
  exact ⟨r, List.mem_of_find?_eq_some hr, rfl, by simpa using List.find?_some hr⟩

/-- The operands do not change the operation type. -/
@[simp] theorem opType_withOperands (t : OpType) (f : Fields) : (withOperands t f).opType = t := by
  cases t <;> rfl

/-- A decoded instruction is its operation type with the operands the fields give. -/
theorem decodeWord_eq_some {w : Word} {i : Instr} : decodeWord w = some i ↔
    classify (decodeFields w) = some i.opType ∧ withOperands i.opType (decodeFields w) = i := by
  unfold decodeWord
  rw [Option.map_eq_some_iff]
  constructor
  · rintro ⟨t, ht, rfl⟩; simp [ht]
  · rintro ⟨h, e⟩; exact ⟨_, h, e⟩

end Sys2Proof
end

