-- ==== Sys2Proof/Laws/State.lean ====
section
/-! SUPPORT. The small lemmas of the state: one lemma per field per update, and what each read (`reg`,
`slot`, `byteAt`, `rnd`) gives after each update, so that no proof unfolds a record update. -/

namespace Sys2Proof.Machine

variable (s : State)

/-! ### setByte -/

@[simp] theorem State.setByte_v (a : Nat) (b : Byte) : (s.setByte a b).v = s.v := rfl
@[simp] theorem State.setByte_pc (a : Nat) (b : Byte) : (s.setByte a b).pc = s.pc := rfl
@[simp] theorem State.setByte_index (a : Nat) (b : Byte) : (s.setByte a b).index = s.index := rfl
@[simp] theorem State.setByte_stack (a : Nat) (b : Byte) : (s.setByte a b).stack = s.stack := rfl
@[simp] theorem State.setByte_sp (a : Nat) (b : Byte) : (s.setByte a b).sp = s.sp := rfl
@[simp] theorem State.setByte_dt (a : Nat) (b : Byte) : (s.setByte a b).dt = s.dt := rfl
@[simp] theorem State.setByte_st (a : Nat) (b : Byte) : (s.setByte a b).st = s.st := rfl
@[simp] theorem State.setByte_mem (a : Nat) (b : Byte) : (s.setByte a b).mem = Memory.write s.mem a b := rfl
@[simp] theorem State.setByte_fb (a : Nat) (b : Byte) : (s.setByte a b).fb = s.fb := rfl
@[simp] theorem State.setByte_fault (a : Nat) (b : Byte) : (s.setByte a b).fault = s.fault := rfl
@[simp] theorem State.setByte_key (a : Nat) (b : Byte) : (s.setByte a b).key = s.key := rfl
@[simp] theorem State.setByte_random (a : Nat) (b : Byte) : (s.setByte a b).random = s.random := rfl
@[simp] theorem State.setByte_reg (a : Nat) (b : Byte) (j : RegIndex) : (s.setByte a b).reg j = s.reg j := rfl
@[simp] theorem State.setByte_slot (a : Nat) (b : Byte) (j : Fin 16) : (s.setByte a b).slot j = s.slot j := rfl
@[simp] theorem State.setByte_rnd (a : Nat) (b : Byte) : (s.setByte a b).rnd = s.rnd := rfl

/-! ### setReg -/

@[simp] theorem State.setReg_pc (i : RegIndex) (b : Byte) : (s.setReg i b).pc = s.pc := rfl
@[simp] theorem State.setReg_index (i : RegIndex) (b : Byte) : (s.setReg i b).index = s.index := rfl
@[simp] theorem State.setReg_stack (i : RegIndex) (b : Byte) : (s.setReg i b).stack = s.stack := rfl
@[simp] theorem State.setReg_sp (i : RegIndex) (b : Byte) : (s.setReg i b).sp = s.sp := rfl
@[simp] theorem State.setReg_dt (i : RegIndex) (b : Byte) : (s.setReg i b).dt = s.dt := rfl
@[simp] theorem State.setReg_st (i : RegIndex) (b : Byte) : (s.setReg i b).st = s.st := rfl
@[simp] theorem State.setReg_mem (i : RegIndex) (b : Byte) : (s.setReg i b).mem = s.mem := rfl
@[simp] theorem State.setReg_fb (i : RegIndex) (b : Byte) : (s.setReg i b).fb = s.fb := rfl
@[simp] theorem State.setReg_fault (i : RegIndex) (b : Byte) : (s.setReg i b).fault = s.fault := rfl
@[simp] theorem State.setReg_key (i : RegIndex) (b : Byte) : (s.setReg i b).key = s.key := rfl
@[simp] theorem State.setReg_random (i : RegIndex) (b : Byte) : (s.setReg i b).random = s.random := rfl
@[simp] theorem State.setReg_slot (i : RegIndex) (b : Byte) (j : Fin 16) : (s.setReg i b).slot j = s.slot j := rfl
@[simp] theorem State.setReg_byteAt (i : RegIndex) (b : Byte) (j : Nat) : (s.setReg i b).byteAt j = s.byteAt j := rfl
@[simp] theorem State.setReg_rnd (i : RegIndex) (b : Byte) : (s.setReg i b).rnd = s.rnd := rfl

/-! ### setFlag -/

@[simp] theorem State.setFlag_pc (b : Byte) : (s.setFlag b).pc = s.pc := rfl
@[simp] theorem State.setFlag_index (b : Byte) : (s.setFlag b).index = s.index := rfl
@[simp] theorem State.setFlag_stack (b : Byte) : (s.setFlag b).stack = s.stack := rfl
@[simp] theorem State.setFlag_sp (b : Byte) : (s.setFlag b).sp = s.sp := rfl
@[simp] theorem State.setFlag_dt (b : Byte) : (s.setFlag b).dt = s.dt := rfl
@[simp] theorem State.setFlag_st (b : Byte) : (s.setFlag b).st = s.st := rfl
@[simp] theorem State.setFlag_mem (b : Byte) : (s.setFlag b).mem = s.mem := rfl
@[simp] theorem State.setFlag_fb (b : Byte) : (s.setFlag b).fb = s.fb := rfl
@[simp] theorem State.setFlag_fault (b : Byte) : (s.setFlag b).fault = s.fault := rfl
@[simp] theorem State.setFlag_key (b : Byte) : (s.setFlag b).key = s.key := rfl
@[simp] theorem State.setFlag_random (b : Byte) : (s.setFlag b).random = s.random := rfl
@[simp] theorem State.setFlag_slot (b : Byte) (j : Fin 16) : (s.setFlag b).slot j = s.slot j := rfl
@[simp] theorem State.setFlag_byteAt (b : Byte) (j : Nat) : (s.setFlag b).byteAt j = s.byteAt j := rfl
@[simp] theorem State.setFlag_rnd (b : Byte) : (s.setFlag b).rnd = s.rnd := rfl

/-! ### setPc -/

@[simp] theorem State.setPc_v (t : Word) : (s.setPc t).v = s.v := rfl
@[simp] theorem State.setPc_pc (t : Word) : (s.setPc t).pc = t := rfl
@[simp] theorem State.setPc_index (t : Word) : (s.setPc t).index = s.index := rfl
@[simp] theorem State.setPc_stack (t : Word) : (s.setPc t).stack = s.stack := rfl
@[simp] theorem State.setPc_sp (t : Word) : (s.setPc t).sp = s.sp := rfl
@[simp] theorem State.setPc_dt (t : Word) : (s.setPc t).dt = s.dt := rfl
@[simp] theorem State.setPc_st (t : Word) : (s.setPc t).st = s.st := rfl
@[simp] theorem State.setPc_mem (t : Word) : (s.setPc t).mem = s.mem := rfl
@[simp] theorem State.setPc_fb (t : Word) : (s.setPc t).fb = s.fb := rfl
@[simp] theorem State.setPc_fault (t : Word) : (s.setPc t).fault = s.fault := rfl
@[simp] theorem State.setPc_key (t : Word) : (s.setPc t).key = s.key := rfl
@[simp] theorem State.setPc_random (t : Word) : (s.setPc t).random = s.random := rfl
@[simp] theorem State.setPc_reg (t : Word) (j : RegIndex) : (s.setPc t).reg j = s.reg j := rfl
@[simp] theorem State.setPc_slot (t : Word) (j : Fin 16) : (s.setPc t).slot j = s.slot j := rfl
@[simp] theorem State.setPc_byteAt (t : Word) (j : Nat) : (s.setPc t).byteAt j = s.byteAt j := rfl
@[simp] theorem State.setPc_rnd (t : Word) : (s.setPc t).rnd = s.rnd := rfl

/-! ### advancePc -/

@[simp] theorem State.advancePc_v : s.advancePc.v = s.v := rfl
@[simp] theorem State.advancePc_pc : s.advancePc.pc = s.pc + 2 := rfl
@[simp] theorem State.advancePc_index : s.advancePc.index = s.index := rfl
@[simp] theorem State.advancePc_stack : s.advancePc.stack = s.stack := rfl
@[simp] theorem State.advancePc_sp : s.advancePc.sp = s.sp := rfl
@[simp] theorem State.advancePc_dt : s.advancePc.dt = s.dt := rfl
@[simp] theorem State.advancePc_st : s.advancePc.st = s.st := rfl
@[simp] theorem State.advancePc_mem : s.advancePc.mem = s.mem := rfl
@[simp] theorem State.advancePc_fb : s.advancePc.fb = s.fb := rfl
@[simp] theorem State.advancePc_fault : s.advancePc.fault = s.fault := rfl
@[simp] theorem State.advancePc_key : s.advancePc.key = s.key := rfl
@[simp] theorem State.advancePc_random : s.advancePc.random = s.random := rfl
@[simp] theorem State.advancePc_reg (j : RegIndex) : s.advancePc.reg j = s.reg j := rfl
@[simp] theorem State.advancePc_slot (j : Fin 16) : s.advancePc.slot j = s.slot j := rfl
@[simp] theorem State.advancePc_byteAt (j : Nat) : s.advancePc.byteAt j = s.byteAt j := rfl
@[simp] theorem State.advancePc_rnd : s.advancePc.rnd = s.rnd := rfl

/-! ### setIndex -/

@[simp] theorem State.setIndex_v (t : Word) : (s.setIndex t).v = s.v := rfl
@[simp] theorem State.setIndex_pc (t : Word) : (s.setIndex t).pc = s.pc := rfl
@[simp] theorem State.setIndex_index (t : Word) : (s.setIndex t).index = t := rfl
@[simp] theorem State.setIndex_stack (t : Word) : (s.setIndex t).stack = s.stack := rfl
@[simp] theorem State.setIndex_sp (t : Word) : (s.setIndex t).sp = s.sp := rfl
@[simp] theorem State.setIndex_dt (t : Word) : (s.setIndex t).dt = s.dt := rfl
@[simp] theorem State.setIndex_st (t : Word) : (s.setIndex t).st = s.st := rfl
@[simp] theorem State.setIndex_mem (t : Word) : (s.setIndex t).mem = s.mem := rfl
@[simp] theorem State.setIndex_fb (t : Word) : (s.setIndex t).fb = s.fb := rfl
@[simp] theorem State.setIndex_fault (t : Word) : (s.setIndex t).fault = s.fault := rfl
@[simp] theorem State.setIndex_key (t : Word) : (s.setIndex t).key = s.key := rfl
@[simp] theorem State.setIndex_random (t : Word) : (s.setIndex t).random = s.random := rfl
@[simp] theorem State.setIndex_reg (t : Word) (j : RegIndex) : (s.setIndex t).reg j = s.reg j := rfl
@[simp] theorem State.setIndex_slot (t : Word) (j : Fin 16) : (s.setIndex t).slot j = s.slot j := rfl
@[simp] theorem State.setIndex_byteAt (t : Word) (j : Nat) : (s.setIndex t).byteAt j = s.byteAt j := rfl
@[simp] theorem State.setIndex_rnd (t : Word) : (s.setIndex t).rnd = s.rnd := rfl

/-! ### setDt -/

@[simp] theorem State.setDt_v (b : Byte) : (s.setDt b).v = s.v := rfl
@[simp] theorem State.setDt_pc (b : Byte) : (s.setDt b).pc = s.pc := rfl
@[simp] theorem State.setDt_index (b : Byte) : (s.setDt b).index = s.index := rfl
@[simp] theorem State.setDt_stack (b : Byte) : (s.setDt b).stack = s.stack := rfl
@[simp] theorem State.setDt_sp (b : Byte) : (s.setDt b).sp = s.sp := rfl
@[simp] theorem State.setDt_dt (b : Byte) : (s.setDt b).dt = b := rfl
@[simp] theorem State.setDt_st (b : Byte) : (s.setDt b).st = s.st := rfl
@[simp] theorem State.setDt_mem (b : Byte) : (s.setDt b).mem = s.mem := rfl
@[simp] theorem State.setDt_fb (b : Byte) : (s.setDt b).fb = s.fb := rfl
@[simp] theorem State.setDt_fault (b : Byte) : (s.setDt b).fault = s.fault := rfl
@[simp] theorem State.setDt_key (b : Byte) : (s.setDt b).key = s.key := rfl
@[simp] theorem State.setDt_random (b : Byte) : (s.setDt b).random = s.random := rfl
@[simp] theorem State.setDt_reg (b : Byte) (j : RegIndex) : (s.setDt b).reg j = s.reg j := rfl
@[simp] theorem State.setDt_slot (b : Byte) (j : Fin 16) : (s.setDt b).slot j = s.slot j := rfl
@[simp] theorem State.setDt_byteAt (b : Byte) (j : Nat) : (s.setDt b).byteAt j = s.byteAt j := rfl
@[simp] theorem State.setDt_rnd (b : Byte) : (s.setDt b).rnd = s.rnd := rfl

/-! ### setSt -/

@[simp] theorem State.setSt_v (b : Byte) : (s.setSt b).v = s.v := rfl
@[simp] theorem State.setSt_pc (b : Byte) : (s.setSt b).pc = s.pc := rfl
@[simp] theorem State.setSt_index (b : Byte) : (s.setSt b).index = s.index := rfl
@[simp] theorem State.setSt_stack (b : Byte) : (s.setSt b).stack = s.stack := rfl
@[simp] theorem State.setSt_sp (b : Byte) : (s.setSt b).sp = s.sp := rfl
@[simp] theorem State.setSt_dt (b : Byte) : (s.setSt b).dt = s.dt := rfl
@[simp] theorem State.setSt_st (b : Byte) : (s.setSt b).st = b := rfl
@[simp] theorem State.setSt_mem (b : Byte) : (s.setSt b).mem = s.mem := rfl
@[simp] theorem State.setSt_fb (b : Byte) : (s.setSt b).fb = s.fb := rfl
@[simp] theorem State.setSt_fault (b : Byte) : (s.setSt b).fault = s.fault := rfl
@[simp] theorem State.setSt_key (b : Byte) : (s.setSt b).key = s.key := rfl
@[simp] theorem State.setSt_random (b : Byte) : (s.setSt b).random = s.random := rfl
@[simp] theorem State.setSt_reg (b : Byte) (j : RegIndex) : (s.setSt b).reg j = s.reg j := rfl
@[simp] theorem State.setSt_slot (b : Byte) (j : Fin 16) : (s.setSt b).slot j = s.slot j := rfl
@[simp] theorem State.setSt_byteAt (b : Byte) (j : Nat) : (s.setSt b).byteAt j = s.byteAt j := rfl
@[simp] theorem State.setSt_rnd (b : Byte) : (s.setSt b).rnd = s.rnd := rfl

/-! ### push -/

@[simp] theorem State.push_v (k : Fin 16) : (s.push k).v = s.v := rfl
@[simp] theorem State.push_pc (k : Fin 16) : (s.push k).pc = s.pc := rfl
@[simp] theorem State.push_index (k : Fin 16) : (s.push k).index = s.index := rfl
@[simp] theorem State.push_stack (k : Fin 16) : (s.push k).stack = s.stack.set k s.pc := rfl
@[simp] theorem State.push_sp (k : Fin 16) : (s.push k).sp = k.succ := rfl
@[simp] theorem State.push_dt (k : Fin 16) : (s.push k).dt = s.dt := rfl
@[simp] theorem State.push_st (k : Fin 16) : (s.push k).st = s.st := rfl
@[simp] theorem State.push_mem (k : Fin 16) : (s.push k).mem = s.mem := rfl
@[simp] theorem State.push_fb (k : Fin 16) : (s.push k).fb = s.fb := rfl
@[simp] theorem State.push_fault (k : Fin 16) : (s.push k).fault = s.fault := rfl
@[simp] theorem State.push_key (k : Fin 16) : (s.push k).key = s.key := rfl
@[simp] theorem State.push_random (k : Fin 16) : (s.push k).random = s.random := rfl
@[simp] theorem State.push_reg (k : Fin 16) (j : RegIndex) : (s.push k).reg j = s.reg j := rfl
@[simp] theorem State.push_byteAt (k : Fin 16) (j : Nat) : (s.push k).byteAt j = s.byteAt j := rfl
@[simp] theorem State.push_rnd (k : Fin 16) : (s.push k).rnd = s.rnd := rfl

/-! ### pop -/

@[simp] theorem State.pop_v (k : Fin 16) : (s.pop k).v = s.v := rfl
@[simp] theorem State.pop_pc (k : Fin 16) : (s.pop k).pc = s.slot k := rfl
@[simp] theorem State.pop_index (k : Fin 16) : (s.pop k).index = s.index := rfl
@[simp] theorem State.pop_stack (k : Fin 16) : (s.pop k).stack = s.stack := rfl
@[simp] theorem State.pop_sp (k : Fin 16) : (s.pop k).sp = k.castSucc := rfl
@[simp] theorem State.pop_dt (k : Fin 16) : (s.pop k).dt = s.dt := rfl
@[simp] theorem State.pop_st (k : Fin 16) : (s.pop k).st = s.st := rfl
@[simp] theorem State.pop_mem (k : Fin 16) : (s.pop k).mem = s.mem := rfl
@[simp] theorem State.pop_fb (k : Fin 16) : (s.pop k).fb = s.fb := rfl
@[simp] theorem State.pop_fault (k : Fin 16) : (s.pop k).fault = s.fault := rfl
@[simp] theorem State.pop_key (k : Fin 16) : (s.pop k).key = s.key := rfl
@[simp] theorem State.pop_random (k : Fin 16) : (s.pop k).random = s.random := rfl
@[simp] theorem State.pop_reg (k : Fin 16) (j : RegIndex) : (s.pop k).reg j = s.reg j := rfl
@[simp] theorem State.pop_slot (k : Fin 16) (j : Fin 16) : (s.pop k).slot j = s.slot j := rfl
@[simp] theorem State.pop_byteAt (k : Fin 16) (j : Nat) : (s.pop k).byteAt j = s.byteAt j := rfl
@[simp] theorem State.pop_rnd (k : Fin 16) : (s.pop k).rnd = s.rnd := rfl

/-! ### latch -/

@[simp] theorem State.latch_v (f : Fault) : (s.latch f).v = s.v := rfl
@[simp] theorem State.latch_pc (f : Fault) : (s.latch f).pc = s.pc := rfl
@[simp] theorem State.latch_index (f : Fault) : (s.latch f).index = s.index := rfl
@[simp] theorem State.latch_stack (f : Fault) : (s.latch f).stack = s.stack := rfl
@[simp] theorem State.latch_sp (f : Fault) : (s.latch f).sp = s.sp := rfl
@[simp] theorem State.latch_dt (f : Fault) : (s.latch f).dt = s.dt := rfl
@[simp] theorem State.latch_st (f : Fault) : (s.latch f).st = s.st := rfl
@[simp] theorem State.latch_mem (f : Fault) : (s.latch f).mem = s.mem := rfl
@[simp] theorem State.latch_fb (f : Fault) : (s.latch f).fb = s.fb := rfl
@[simp] theorem State.latch_fault (f : Fault) : (s.latch f).fault = { valid := true, code := f.code, info := f.info } := rfl
@[simp] theorem State.latch_key (f : Fault) : (s.latch f).key = s.key := rfl
@[simp] theorem State.latch_random (f : Fault) : (s.latch f).random = s.random := rfl
@[simp] theorem State.latch_reg (f : Fault) (j : RegIndex) : (s.latch f).reg j = s.reg j := rfl
@[simp] theorem State.latch_slot (f : Fault) (j : Fin 16) : (s.latch f).slot j = s.slot j := rfl
@[simp] theorem State.latch_byteAt (f : Fault) (j : Nat) : (s.latch f).byteAt j = s.byteAt j := rfl
@[simp] theorem State.latch_rnd (f : Fault) : (s.latch f).rnd = s.rnd := rfl

/-! ### setFb -/

@[simp] theorem State.setFb_v (fb : Framebuffer) : (s.setFb fb).v = s.v := rfl
@[simp] theorem State.setFb_pc (fb : Framebuffer) : (s.setFb fb).pc = s.pc := rfl
@[simp] theorem State.setFb_index (fb : Framebuffer) : (s.setFb fb).index = s.index := rfl
@[simp] theorem State.setFb_stack (fb : Framebuffer) : (s.setFb fb).stack = s.stack := rfl
@[simp] theorem State.setFb_sp (fb : Framebuffer) : (s.setFb fb).sp = s.sp := rfl
@[simp] theorem State.setFb_dt (fb : Framebuffer) : (s.setFb fb).dt = s.dt := rfl
@[simp] theorem State.setFb_st (fb : Framebuffer) : (s.setFb fb).st = s.st := rfl
@[simp] theorem State.setFb_mem (fb : Framebuffer) : (s.setFb fb).mem = s.mem := rfl
@[simp] theorem State.setFb_fb (fb : Framebuffer) : (s.setFb fb).fb = fb := rfl
@[simp] theorem State.setFb_fault (fb : Framebuffer) : (s.setFb fb).fault = s.fault := rfl
@[simp] theorem State.setFb_key (fb : Framebuffer) : (s.setFb fb).key = s.key := rfl
@[simp] theorem State.setFb_random (fb : Framebuffer) : (s.setFb fb).random = s.random := rfl
@[simp] theorem State.setFb_reg (fb : Framebuffer) (j : RegIndex) : (s.setFb fb).reg j = s.reg j := rfl
@[simp] theorem State.setFb_slot (fb : Framebuffer) (j : Fin 16) : (s.setFb fb).slot j = s.slot j := rfl
@[simp] theorem State.setFb_byteAt (fb : Framebuffer) (j : Nat) : (s.setFb fb).byteAt j = s.byteAt j := rfl
@[simp] theorem State.setFb_rnd (fb : Framebuffer) : (s.setFb fb).rnd = s.rnd := rfl

/-! ### tick -/

@[simp] theorem State.tick_v : s.tick.v = s.v := rfl
@[simp] theorem State.tick_pc : s.tick.pc = s.pc := rfl
@[simp] theorem State.tick_index : s.tick.index = s.index := rfl
@[simp] theorem State.tick_stack : s.tick.stack = s.stack := rfl
@[simp] theorem State.tick_sp : s.tick.sp = s.sp := rfl
@[simp] theorem State.tick_dt : s.tick.dt = tickTimer s.dt := rfl
@[simp] theorem State.tick_st : s.tick.st = tickTimer s.st := rfl
@[simp] theorem State.tick_mem : s.tick.mem = s.mem := rfl
@[simp] theorem State.tick_fb : s.tick.fb = s.fb := rfl
@[simp] theorem State.tick_fault : s.tick.fault = s.fault := rfl
@[simp] theorem State.tick_key : s.tick.key = s.key := rfl
@[simp] theorem State.tick_random : s.tick.random = s.random := rfl
@[simp] theorem State.tick_reg (j : RegIndex) : s.tick.reg j = s.reg j := rfl
@[simp] theorem State.tick_slot (j : Fin 16) : s.tick.slot j = s.slot j := rfl
@[simp] theorem State.tick_byteAt (j : Nat) : s.tick.byteAt j = s.byteAt j := rfl
@[simp] theorem State.tick_rnd : s.tick.rnd = s.rnd := rfl

/-! ### setRandom -/

@[simp] theorem State.setRandom_v (p : RandomPort) : (s.setRandom p).v = s.v := rfl
@[simp] theorem State.setRandom_pc (p : RandomPort) : (s.setRandom p).pc = s.pc := rfl
@[simp] theorem State.setRandom_index (p : RandomPort) : (s.setRandom p).index = s.index := rfl
@[simp] theorem State.setRandom_stack (p : RandomPort) : (s.setRandom p).stack = s.stack := rfl
@[simp] theorem State.setRandom_sp (p : RandomPort) : (s.setRandom p).sp = s.sp := rfl
@[simp] theorem State.setRandom_dt (p : RandomPort) : (s.setRandom p).dt = s.dt := rfl
@[simp] theorem State.setRandom_st (p : RandomPort) : (s.setRandom p).st = s.st := rfl
@[simp] theorem State.setRandom_mem (p : RandomPort) : (s.setRandom p).mem = s.mem := rfl
@[simp] theorem State.setRandom_fb (p : RandomPort) : (s.setRandom p).fb = s.fb := rfl
@[simp] theorem State.setRandom_fault (p : RandomPort) : (s.setRandom p).fault = s.fault := rfl
@[simp] theorem State.setRandom_key (p : RandomPort) : (s.setRandom p).key = s.key := rfl
@[simp] theorem State.setRandom_random (p : RandomPort) : (s.setRandom p).random = p := rfl
@[simp] theorem State.setRandom_reg (p : RandomPort) (j : RegIndex) : (s.setRandom p).reg j = s.reg j := rfl
@[simp] theorem State.setRandom_slot (p : RandomPort) (j : Fin 16) : (s.setRandom p).slot j = s.slot j := rfl
@[simp] theorem State.setRandom_byteAt (p : RandomPort) (j : Nat) : (s.setRandom p).byteAt j = s.byteAt j := rfl
@[simp] theorem State.setRandom_toBlock (p : RandomPort) : (s.setRandom p).toBlock = s.toBlock := rfl

/-! ### drawn -/

@[simp] theorem State.drawn_v : s.drawn.v = s.v := rfl
@[simp] theorem State.drawn_pc : s.drawn.pc = s.pc := rfl
@[simp] theorem State.drawn_index : s.drawn.index = s.index := rfl
@[simp] theorem State.drawn_stack : s.drawn.stack = s.stack := rfl
@[simp] theorem State.drawn_sp : s.drawn.sp = s.sp := rfl
@[simp] theorem State.drawn_dt : s.drawn.dt = s.dt := rfl
@[simp] theorem State.drawn_st : s.drawn.st = s.st := rfl
@[simp] theorem State.drawn_mem : s.drawn.mem = s.mem := rfl
@[simp] theorem State.drawn_fb : s.drawn.fb = s.fb := rfl
@[simp] theorem State.drawn_fault : s.drawn.fault = s.fault := rfl
@[simp] theorem State.drawn_key : s.drawn.key = s.key := rfl
@[simp] theorem State.drawn_random : s.drawn.random = s.random.next := rfl
@[simp] theorem State.drawn_reg (j : RegIndex) : s.drawn.reg j = s.reg j := rfl
@[simp] theorem State.drawn_slot (j : Fin 16) : s.drawn.slot j = s.slot j := rfl
@[simp] theorem State.drawn_byteAt (j : Nat) : s.drawn.byteAt j = s.byteAt j := rfl
@[simp] theorem State.drawn_toBlock : s.drawn.toBlock = s.toBlock := rfl

/-! ### restart -/

@[simp] theorem State.restart_toBlock : s.restart.toBlock = Block.reset := rfl
@[simp] theorem State.restart_random : s.restart.random = s.random := rfl

/-! ### setKey -/

@[simp] theorem State.setKey_v (k : Option Byte) : (s.setKey k).v = s.v := rfl
@[simp] theorem State.setKey_pc (k : Option Byte) : (s.setKey k).pc = s.pc := rfl
@[simp] theorem State.setKey_index (k : Option Byte) : (s.setKey k).index = s.index := rfl
@[simp] theorem State.setKey_stack (k : Option Byte) : (s.setKey k).stack = s.stack := rfl
@[simp] theorem State.setKey_sp (k : Option Byte) : (s.setKey k).sp = s.sp := rfl
@[simp] theorem State.setKey_dt (k : Option Byte) : (s.setKey k).dt = s.dt := rfl
@[simp] theorem State.setKey_st (k : Option Byte) : (s.setKey k).st = s.st := rfl
@[simp] theorem State.setKey_mem (k : Option Byte) : (s.setKey k).mem = s.mem := rfl
@[simp] theorem State.setKey_fb (k : Option Byte) : (s.setKey k).fb = s.fb := rfl
@[simp] theorem State.setKey_fault (k : Option Byte) : (s.setKey k).fault = s.fault := rfl
@[simp] theorem State.setKey_key (k : Option Byte) : (s.setKey k).key = k := rfl
@[simp] theorem State.setKey_random (k : Option Byte) : (s.setKey k).random = s.random := rfl
@[simp] theorem State.setKey_reg (k : Option Byte) (j : RegIndex) : (s.setKey k).reg j = s.reg j := rfl
@[simp] theorem State.setKey_slot (k : Option Byte) (j : Fin 16) : (s.setKey k).slot j = s.slot j := rfl
@[simp] theorem State.setKey_byteAt (k : Option Byte) (j : Nat) : (s.setKey k).byteAt j = s.byteAt j := rfl
@[simp] theorem State.setKey_rnd (k : Option Byte) : (s.setKey k).rnd = s.rnd := rfl

/-! ### Reads after the writes that reach them -/

/-- A register reads what was last written to it, and a write leaves the others alone. -/
@[simp] theorem State.setReg_reg (i j : RegIndex) (b : Byte) :
    (s.setReg i b).reg j = if j = i then b else s.reg j := by
  by_cases h : j = i
  · subst h; simp [State.reg, State.setReg]
  · have : i.toNat ≠ j.toNat := fun e => h (BitVec.eq_of_toNat_eq e.symm)
    simp [State.reg, State.setReg, this, h]

/-- `setFlag` writes `VF`. -/
@[simp] theorem State.setFlag_reg (j : RegIndex) (b : Byte) :
    (s.setFlag b).reg j = if j = flagIndex then b else s.reg j := s.setReg_reg flagIndex j b

/-- A push writes its slot and leaves the others alone. -/
@[simp] theorem State.push_slot (k j : Fin 16) :
    (s.push k).slot j = if j = k then s.pc else s.slot j := by
  by_cases h : j = k
  · subst h; simp [State.slot, State.push]
  · have : k.val ≠ j.val := fun e => h (Fin.ext e.symm)
    simp [State.slot, State.push, this, h]

/-- Two states with equal reads of every piece, memory cell lists included, are equal. -/
theorem State.ext_reads {s t : State} (v : ∀ i, t.reg i = s.reg i) (pc : t.pc = s.pc)
    (index : t.index = s.index) (slots : ∀ k, t.slot k = s.slot k) (sp : t.sp = s.sp)
    (dt : t.dt = s.dt) (st : t.st = s.st) (mem : t.mem = s.mem) (fb : t.fb = s.fb)
    (fault : t.fault = s.fault) (key : t.key = s.key) (random : t.random = s.random) : t = s := by
  have hv : t.v = s.v := by
    apply Vector.ext
    intro i hi
    have := v (BitVec.ofNat 4 i)
    simpa [State.reg, Nat.mod_eq_of_lt hi] using this
  have hs : t.stack = s.stack := Vector.ext fun i hi => slots ⟨i, hi⟩
  obtain ⟨⟨⟩, _⟩ := s
  obtain ⟨⟨⟩, _⟩ := t
  simp_all

/-! ### The state after reset -/

@[simp] theorem State.reset_reg (i : RegIndex) : State.reset.reg i = 0 := by
  simp [State.reg, State.reset, Block.reset]

@[simp] theorem State.reset_slot (k : Fin 16) : State.reset.slot k = 0 := by
  simp [State.slot, State.reset, Block.reset]

@[simp] theorem State.reset_toBlock : State.reset.toBlock = Block.reset := rfl

@[simp] theorem State.reset_mem : State.reset.mem = [] := rfl

@[simp] theorem State.reset_byteAt (a : Nat) : State.reset.byteAt a = resetByte a := rfl

/-! ### Frames -/

/-- A state is the same as itself but for anything. -/
theorem SameBut.refl (ps : List Part) : SameBut ps s s := by
  constructor <;> intros <;> rfl

/-- A frame may name more than what changes. -/
theorem SameBut.mono {ps qs : List Part} {s t : State} (h : SameBut ps s t)
    (sub : ∀ p ∈ ps, p ∈ qs) : SameBut qs s t :=
  ⟨fun i hi => h.regs i (mt (sub _) hi), fun hi => h.pc (mt (sub _) hi),
   fun hi => h.index (mt (sub _) hi), fun k hi => h.slots k (mt (sub _) hi),
   fun hi => h.sp (mt (sub _) hi), fun hi => h.dt (mt (sub _) hi), fun hi => h.st (mt (sub _) hi),
   fun a hi => h.bytes a (mt (sub _) hi), fun hi => h.fb (mt (sub _) hi),
   fun hi => h.fault (mt (sub _) hi), fun hi => h.key (mt (sub _) hi),
   fun hi => h.random (mt (sub _) hi)⟩

/-- Frames compose. -/
theorem SameBut.trans {ps : List Part} {s t u : State} (h : SameBut ps s t) (k : SameBut ps t u) :
    SameBut ps s u :=
  ⟨fun i hi => (k.regs i hi).trans (h.regs i hi), fun hi => (k.pc hi).trans (h.pc hi),
   fun hi => (k.index hi).trans (h.index hi), fun i hi => (k.slots i hi).trans (h.slots i hi),
   fun hi => (k.sp hi).trans (h.sp hi), fun hi => (k.dt hi).trans (h.dt hi),
   fun hi => (k.st hi).trans (h.st hi), fun a hi => (k.bytes a hi).trans (h.bytes a hi),
   fun hi => (k.fb hi).trans (h.fb hi), fun hi => (k.fault hi).trans (h.fault hi),
   fun hi => (k.key hi).trans (h.key hi), fun hi => (k.random hi).trans (h.random hi)⟩

end Sys2Proof.Machine
end

