-- ==== Sys2Proof/Laws/Memory.lean ====
section
/-! SUPPORT. The laws of memory: a read after a write, and that every memory operation keeps the
canonical form. -/

namespace Sys2Proof.Machine

/-- The address `a` lies below every cell of the list. -/
def Memory.Below (a : Nat) (m : List Host.Cell) : Prop := ∀ p ∈ m, a < p.1

/-- An address below every cell is not listed. -/
theorem Memory.lookup_of_below {a : Nat} : ∀ {m : List Host.Cell}, Memory.Below a m →
    Memory.lookup m a = none
  | [], _ => rfl
  | (k, c) :: rest, h => by
    have hk : a < k := h (k, c) (by simp)
    have hr : Memory.Below a rest := fun p hp => h p (List.mem_cons_of_mem _ hp)
    simp [Memory.lookup, Nat.ne_of_gt hk, Memory.lookup_of_below hr]

/-- What a cell list with one cell put in front holds, where that address is listed nowhere after. -/
theorem Memory.read_putCell {a : Nat} {b : Byte} {rest : List Host.Cell}
    (h : Memory.lookup rest a = none) (j : Nat) :
    Memory.read (Memory.putCell a b rest) j = if j = a then b else Memory.read rest j := by
  unfold Memory.putCell Memory.read
  by_cases hb : b = resetByte a <;> by_cases hj : j = a
  · subst hj; simp [hb, h]
  · simp [hb, hj]
  · subst hj; simp [hb, Memory.lookup]
  · simp [hb, hj, Memory.lookup, Ne.symm hj]

/-- In a rising list every cell after the first lies above it. -/
theorem Memory.below_of_pairwise {k : Nat} {c : Byte} {rest : List Host.Cell}
    (h : ((k, c) :: rest).Pairwise (fun p q => p.1 < q.1)) : Memory.Below k rest :=
  (List.pairwise_cons.mp h).1

/-- A read after a write: the byte written at its address, every other address as before. -/
theorem Memory.read_write {a : Nat} {b : Byte} : ∀ {m : List Host.Cell},
    m.Pairwise (fun p q => p.1 < q.1) → ∀ j,
    Memory.read (Memory.write m a b) j = if j = a then b else Memory.read m j
  | [], _, j => Memory.read_putCell rfl j
  | (k, c) :: rest, h, j => by
    have below := Memory.below_of_pairwise h
    unfold Memory.write
    split
    · rename_i hlt
      refine Memory.read_putCell (Memory.lookup_of_below ?_) j
      intro p hp
      rcases List.mem_cons.mp hp with rfl | hp
      · exact hlt
      · exact lt_trans hlt (below p hp)
    · split
      · rename_i _ heq
        subst heq
        rw [Memory.read_putCell (Memory.lookup_of_below below)]
        by_cases hj : j = a
        · simp [hj]
        · simp [hj, Memory.read, Memory.lookup, Ne.symm hj]
      · rename_i _ hne
        have ih := Memory.read_write (a := a) (b := b) (List.pairwise_cons.mp h).2 j
        unfold Memory.read at ih ⊢
        by_cases hk : k = j
        · subst hk; simp [Memory.lookup, Ne.symm hne]
        · simpa [Memory.lookup, hk] using ih

/-- Where a write puts its cells: at the address written, or where cells were. -/
theorem Memory.mem_write {a : Nat} {b : Byte} {p : Host.Cell} : ∀ {m : List Host.Cell},
    p ∈ Memory.write m a b → p = (a, b) ∧ b ≠ resetByte a ∨ p ∈ m
  | [], hp => by
    by_cases hb : b = resetByte a <;> simp_all [Memory.write, Memory.putCell]
  | (k, c) :: rest, hp => by
    unfold Memory.write at hp
    split at hp
    · by_cases hb : b = resetByte a <;> simp_all [Memory.putCell]
    · split at hp
      · by_cases hb : b = resetByte a
        · simp_all [Memory.putCell]
        · rcases List.mem_cons.mp (by simpa [Memory.putCell, hb] using hp) with h | h
          · exact .inl ⟨h, hb⟩
          · exact .inr (List.mem_cons_of_mem _ h)
      · rcases List.mem_cons.mp hp with h | h
        · exact .inr (by simp [h])
        · rcases Memory.mem_write h with h | h
          · exact .inl h
          · exact .inr (List.mem_cons_of_mem _ h)

/-- A cell put in front of higher cells leaves the list rising. -/
theorem Memory.pairwise_putCell {a : Nat} {b : Byte} {rest : List Host.Cell}
    (below : Memory.Below a rest) (h : rest.Pairwise (fun p q => p.1 < q.1)) :
    (Memory.putCell a b rest).Pairwise (fun p q => p.1 < q.1) := by
  unfold Memory.putCell
  split
  · exact h
  · exact List.pairwise_cons.mpr ⟨below, h⟩

/-- A write leaves the addresses rising. -/
theorem Memory.pairwise_write {a : Nat} {b : Byte} : ∀ {m : List Host.Cell},
    m.Pairwise (fun p q => p.1 < q.1) →
    (Memory.write m a b).Pairwise (fun p q => p.1 < q.1)
  | [], _ => Memory.pairwise_putCell (fun _ hp => by simp at hp) List.Pairwise.nil
  | (k, c) :: rest, h => by
    have below := Memory.below_of_pairwise h
    have hr := (List.pairwise_cons.mp h).2
    unfold Memory.write
    split
    · rename_i hlt
      refine Memory.pairwise_putCell (fun p hp => ?_) h
      rcases List.mem_cons.mp hp with rfl | hp
      · exact hlt
      · exact lt_trans hlt (below p hp)
    · split
      · rename_i _ heq
        exact Memory.pairwise_putCell (heq ▸ below) hr
      · refine List.pairwise_cons.mpr ⟨fun p hp => ?_, Memory.pairwise_write hr⟩
        rcases Memory.mem_write hp with ⟨rfl, _⟩ | hp
        · simp only; omega
        · exact below p hp

/-- Every write inside memory keeps the canonical form. -/
theorem Memory.wf_write {m : List Host.Cell} {a : Nat} {b : Byte} (h : Memory.wf m)
    (ha : a < Config.memSize) : Memory.wf (Memory.write m a b) := by
  refine ⟨Memory.pairwise_write h.1, fun p hp => ?_⟩
  rcases Memory.mem_write hp with ⟨rfl, hb⟩ | hp
  · exact ⟨ha, hb⟩
  · exact h.2 p hp

/-- The memory after reset is in canonical form. -/
theorem Memory.wf_reset : Memory.wf State.reset.mem := by decide

/-- A listed cell is what its address reads as. -/
theorem Memory.lookup_of_mem : ∀ {m : List Host.Cell} {p : Host.Cell},
    m.Pairwise (fun p q => p.1 < q.1) → p ∈ m → Memory.lookup m p.1 = some p.2
  | (k, c) :: rest, p, h, hp => by
    rcases List.mem_cons.mp hp with rfl | hp
    · simp [Memory.lookup]
    · have : k < p.1 := Memory.below_of_pairwise h p hp
      simp [Memory.lookup, Nat.ne_of_lt this,
        Memory.lookup_of_mem (List.pairwise_cons.mp h).2 hp]

/-- The first cell of a canonical list is not below the first cell of another that reads the same. -/
theorem Memory.head_le {k k' : Nat} {c c' : Byte} {r r' : List Host.Cell}
    (h : Memory.wf ((k, c) :: r)) (h' : Memory.wf ((k', c') :: r'))
    (same : ∀ a, Memory.read ((k, c) :: r) a = Memory.read ((k', c') :: r') a) : k' ≤ k := by
  by_contra hlt
  have below : Memory.Below k ((k', c') :: r') := by
    intro p hp
    rcases List.mem_cons.mp hp with rfl | hp
    · simp only; omega
    · exact lt_trans (by omega) (Memory.below_of_pairwise h'.1 p hp)
  have := same k
  simp [Memory.read, Memory.lookup_of_below below] at this
  simp [Memory.lookup] at this
  exact (h.2 (k, c) (by simp)).2 this

/-- The canonical form is canonical: two such lists that read the same at every address are equal. -/
theorem Memory.eq_of_read_eq : ∀ {m m' : List Host.Cell}, Memory.wf m → Memory.wf m' →
    (∀ a, Memory.read m a = Memory.read m' a) → m = m'
  | [], [], _, _, _ => rfl
  | [], (k, c) :: r, _, h', same => by
    have := same k
    simp [Memory.read, Memory.lookup] at this
    exact absurd this.symm (h'.2 (k, c) (by simp)).2
  | (k, c) :: r, [], h, _, same => by
    have := same k
    simp [Memory.read, Memory.lookup] at this
    exact absurd this (h.2 (k, c) (by simp)).2
  | (k, c) :: r, (k', c') :: r', h, h', same => by
    have hk : k = k' := le_antisymm (Memory.head_le h' h fun a => (same a).symm)
      (Memory.head_le h h' same)
    subst hk
    have hc : c = c' := by simpa [Memory.read, Memory.lookup] using same k
    subst hc
    have hb := Memory.below_of_pairwise h.1
    have hb' := Memory.below_of_pairwise h'.1
    refine congrArg _ (Memory.eq_of_read_eq
      ⟨(List.pairwise_cons.mp h.1).2, fun p hp => h.2 p (List.mem_cons_of_mem _ hp)⟩
      ⟨(List.pairwise_cons.mp h'.1).2, fun p hp => h'.2 p (List.mem_cons_of_mem _ hp)⟩ fun a => ?_)
    by_cases ha : a = k
    · subst ha
      simp [Memory.read, Memory.lookup_of_below hb, Memory.lookup_of_below hb']
    · simpa [Memory.read, Memory.lookup, Ne.symm ha] using same a

/-! ### The state's memory -/

/-- A read after a write of one byte. -/
theorem State.setByte_byteAt {s : State} (h : Memory.wf s.mem) (a : Nat) (b : Byte) (j : Nat) :
    (s.setByte a b).byteAt j = if j = a then b else s.byteAt j :=
  Memory.read_write h.1 j

/-- A write of one byte inside memory keeps the canonical form. -/
theorem State.setByte_wf {s : State} (h : Memory.wf s.mem) {a : Nat} (ha : a < Config.memSize)
    (b : Byte) : Memory.wf (s.setByte a b).mem :=
  Memory.wf_write h ha

/-- Placing an opcode keeps the canonical form. -/
theorem State.placeOpcode_wf {s : State} (h : Memory.wf s.mem) (op : Word) :
    Memory.wf (s.placeOpcode op).mem := by
  unfold State.placeOpcode
  split
  · exact State.setByte_wf (State.setByte_wf h (by omega) _) (by omega) _
  · exact h

end Sys2Proof.Machine
end

