-- ==== Sys2Proof/Laws/Ops.lean ====
section
/-! SUPPORT. One lemma for each shared operation that says everything it can do: the bounds-checked
accesses, the range accesses, the block load of registers, the skip and the end of a cycle. -/

namespace Sys2Proof.Machine

variable {s : State}

/-! ### Single-byte accesses -/

theorem memRead_ok {a : Nat} (h : a < Config.memSize) : memRead s a = .ok (s.byteAt a) := by
  simp [memRead, h]

theorem memRead_error {a : Nat} (h : Config.memSize ≤ a) :
    memRead s a = .error (outOfBounds a) := by
  simp [memRead, Nat.not_lt.mpr h]

theorem memWrite_ok {a : Nat} {b : Byte} (h : a < Config.memSize) :
    memWrite s a b = .ok (s.setByte a b) := by
  simp [memWrite, h]

theorem memWrite_error {a : Nat} {b : Byte} (h : Config.memSize ≤ a) :
    memWrite s a b = .error (outOfBounds a) := by
  simp [memWrite, Nat.not_lt.mpr h]

/-- A write of one byte changes that byte alone. -/
theorem setByte_frame (h : Memory.wf s.mem) (a : Nat) (b : Byte) :
    SameBut [.byte a] s (s.setByte a b) := by
  constructor
  case bytes =>
    intro j hj
    rw [State.setByte_byteAt h, if_neg (fun e => hj (by simp [e]))]
  all_goals intros; rfl

/-! ### Frames of the single updates -/

theorem setReg_frame (s : State) (i : RegIndex) (b : Byte) : SameBut [.reg i] s (s.setReg i b) := by
  constructor <;> intros <;> simp_all

theorem setPc_frame (s : State) (t : Word) : SameBut [.pc] s (s.setPc t) := by
  constructor <;> intros <;> simp_all

theorem setIndex_frame (s : State) (t : Word) : SameBut [.index] s (s.setIndex t) := by
  constructor <;> intros <;> simp_all

/-- A skip sets `pc` and does nothing else. -/
theorem skipIf_eq (c : Bool) (s : State) :
    skipIf c s = .next (s.setPc (if c then s.pc + 2 else s.pc)) := by
  cases c <;> rfl

/-! ### Reading a range -/

/-- A range inside memory is read whole. -/
theorem readRange_ok : ∀ {n a : Nat}, a + n ≤ Config.memSize →
    readRange s a n = .ok ((List.range n).map fun j => s.byteAt (a + j))
  | 0, _, _ => rfl
  | n + 1, a, h => by
    have ih := readRange_ok (n := n) (a := a + 1) (by omega)
    have hl : (List.range (n + 1)).map (fun j => s.byteAt (a + j)) =
        s.byteAt a :: (List.range n).map (fun j => s.byteAt (a + 1 + j)) := by
      simp [List.range_succ_eq_map, Nat.add_assoc, Nat.add_comm 1]
    simp only [readRange, memRead_ok (a := a) (by omega), ih, hl]

/-- A range that leaves memory faults at its first address of 4096 or more. -/
theorem readRange_error : ∀ {n a : Nat}, 0 < n → Config.memSize < a + n →
    readRange s a n = .error (outOfBounds (max a Config.memSize))
  | n + 1, a, _, h => by
    by_cases ha : a < Config.memSize
    · have ih := readRange_error (n := n) (a := a + 1) (by omega) (by omega)
      have : max (a + 1) Config.memSize = max a Config.memSize := by omega
      simp only [readRange, memRead_ok ha, ih, this]
    · have : max a Config.memSize = a := by omega
      simp only [readRange, memRead_error (Nat.not_lt.mp ha), this]

/-! ### Writing a range -/

/-- The bytes at `a`, `a + 1`, ..., `a + n - 1` as parts of a frame. -/
abbrev byteParts (a n : Nat) : List Part := (List.range n).map fun j => Part.byte (a + j)

theorem mem_byteParts {a n j : Nat} : Part.byte j ∈ byteParts a n ↔ a ≤ j ∧ j < a + n := by
  simp only [List.mem_map, List.mem_range, Part.byte.injEq]
  constructor
  · rintro ⟨i, hi, rfl⟩; omega
  · rintro ⟨h1, h2⟩; exact ⟨j - a, by omega, by omega⟩

/-- What a range write has done when it ends, in bounds or not: the in-bounds bytes are written and
nothing else has changed. -/
structure RangeWritten (s : State) (a : Nat) (bs : List Byte) (t : State) : Prop where
  wf      : Memory.wf t.mem
  written : ∀ j (hj : j < bs.length), a + j < Config.memSize → t.byteAt (a + j) = bs[j]
  frame   : SameBut (byteParts a bs.length) s t

/-- A range write goes through, or raises at its first address out of bounds with the bytes below it
written. -/
theorem writeRange_spec : ∀ {bs : List Byte} {a : Nat} {s : State}, Memory.wf s.mem →
    ∃ t, RangeWritten s a bs t ∧
      writeRange s a bs =
        if bs = [] ∨ a + bs.length ≤ Config.memSize then .next t
        else raise (outOfBounds (max a Config.memSize)) t
  | [], a, s, h => ⟨s, ⟨h, fun _ hj => by simp at hj, SameBut.refl s _⟩, by simp [writeRange]⟩
  | b :: bs, a, s, h => by
    by_cases ha : a < Config.memSize
    · obtain ⟨t, ht, e⟩ := writeRange_spec (bs := bs) (a := a + 1) (State.setByte_wf h ha b)
      refine ⟨t, ⟨ht.wf, ?_, ?_⟩, ?_⟩
      · intro j hj hm
        cases j with
        | zero =>
          have := ht.frame.bytes a (by rw [mem_byteParts]; omega)
          simpa [State.setByte_byteAt h] using this
        | succ j =>
          have := ht.written j (by simpa using hj) (by omega)
          simpa [Nat.add_assoc, Nat.add_comm 1] using this
      · refine ((setByte_frame h a b).mono ?_).trans (ht.frame.mono ?_)
        · intro p hp
          simp only [List.mem_singleton] at hp
          subst hp
          rw [mem_byteParts]; simp
        · intro p hp
          simp only [List.mem_map, List.mem_range] at hp ⊢
          obtain ⟨i, hi, rfl⟩ := hp
          exact ⟨i + 1, by simpa using hi, by congr 1; omega⟩
      · rw [writeRange, memWrite_ok ha]
        simp only [e]
        have hmax : max (a + 1) Config.memSize = max a Config.memSize := by omega
        rw [hmax]
        by_cases hb : bs = []
        · subst hb
          have : a + 1 ≤ Config.memSize := by omega
          simp [this]
        · have : (a + 1 + bs.length ≤ Config.memSize) ↔ (a + (b :: bs).length ≤ Config.memSize) := by
            simp only [List.length_cons]; omega
          simp [hb, this]
    · refine ⟨s, ⟨h, fun j _ hm => absurd hm (by omega), SameBut.refl s _⟩, ?_⟩
      have hmax : max a Config.memSize = a := by omega
      have : ¬ (a + (b :: bs).length ≤ Config.memSize) := by
        simp only [List.length_cons]; omega
      rw [writeRange, memWrite_error (Nat.not_lt.mp ha), if_neg (by simpa using this), hmax]

/-- A range write that fits goes through. -/
theorem writeRange_next (h : Memory.wf s.mem) {a : Nat} {bs : List Byte}
    (fits : a + bs.length ≤ Config.memSize) :
    ∃ t, writeRange s a bs = .next t ∧ RangeWritten s a bs t := by
  obtain ⟨t, ht, e⟩ := writeRange_spec (bs := bs) (a := a) h
  exact ⟨t, by rw [e, if_pos (.inr fits)], ht⟩

/-- A range write that leaves memory raises at its first address out of bounds. -/
theorem writeRange_raises (h : Memory.wf s.mem) {a : Nat} {bs : List Byte} (nonempty : bs ≠ [])
    (out : Config.memSize < a + bs.length) :
    ∃ t, writeRange s a bs = raise (outOfBounds (max a Config.memSize)) t ∧
      RangeWritten s a bs t := by
  obtain ⟨t, ht, e⟩ := writeRange_spec (bs := bs) (a := a) h
  exact ⟨t, by rw [e, if_neg (not_or.mpr ⟨nonempty, Nat.not_le.mpr out⟩)], ht⟩

/-- A range write always answers a next state. -/
theorem writeRange_answers : ∀ (bs : List Byte) (a : Nat) (s : State),
    ∃ t, writeRange s a bs = .next t
  | [], _, s => ⟨s, rfl⟩
  | b :: bs, a, s => by
    by_cases ha : a < Config.memSize
    · obtain ⟨t, e⟩ := writeRange_answers bs (a + 1) (s.setByte a b)
      exact ⟨t, by rw [writeRange, memWrite_ok ha]; exact e⟩
    · exact ⟨s.latch (outOfBounds a), by rw [writeRange, memWrite_error (Nat.not_lt.mp ha)]; rfl⟩

/-- A range write that ends, in any memory, changes memory and the latch alone. -/
theorem writeRange_others : ∀ {bs : List Byte} {a : Nat} {s t : State}, writeRange s a bs = .next t →
    ∃ m f, t = { s with mem := m, fault := f }
  | [], a, s, t, h => by
    injection h with h
    exact ⟨s.mem, s.fault, h.symm⟩
  | b :: bs, a, s, t, h => by
    by_cases ha : a < Config.memSize
    · rw [writeRange, memWrite_ok ha] at h
      obtain ⟨m, f, e⟩ := writeRange_others (s := s.setByte a b) h
      exact ⟨m, f, e⟩
    · rw [writeRange, memWrite_error (Nat.not_lt.mp ha)] at h
      injection h with h
      exact ⟨s.mem, _, h.symm⟩

/-- A range write that ends leaves the latch alone or raises at an address of its own, out of bounds. -/
theorem writeRange_latch : ∀ {bs : List Byte} {a : Nat} {s t : State}, writeRange s a bs = .next t →
    t.fault = s.fault ∨
      ∃ b, Config.memSize ≤ b ∧ a ≤ b ∧ b < a + bs.length ∧ t.fault = latched 2 b
  | [], a, s, t, h => by
    injection h with h
    exact .inl (h ▸ rfl)
  | b :: bs, a, s, t, h => by
    by_cases ha : a < Config.memSize
    · rw [writeRange, memWrite_ok ha] at h
      rcases writeRange_latch (s := s.setByte a b) h with h | ⟨c, h1, h2, h3, h4⟩
      · exact .inl h
      · exact .inr ⟨c, h1, by omega, by simp only [List.length_cons]; omega, h4⟩
    · rw [writeRange, memWrite_error (Nat.not_lt.mp ha)] at h
      injection h with h
      exact .inr ⟨a, by omega, by omega, by simp only [List.length_cons]; omega, h ▸ rfl⟩

/-- A range write keeps the canonical form, whether or not it raises. -/
theorem writeRange_wf : ∀ {bs : List Byte} {a : Nat} {s t : State}, Memory.wf s.mem →
    writeRange s a bs = .next t → Memory.wf t.mem
  | [], a, s, t, h, e => by
    injection e with e
    exact e ▸ h
  | b :: bs, a, s, t, h, e => by
    by_cases ha : a < Config.memSize
    · rw [writeRange, memWrite_ok ha] at e
      exact writeRange_wf (State.setByte_wf h ha b) e
    · rw [writeRange, memWrite_error (Nat.not_lt.mp ha)] at e
      injection e with e
      exact e ▸ h

/-! ### Loading a block of registers -/

/-- The registers `V0` to `Vx` are those with an index up to `x`. -/
theorem mem_regsUpTo {x i : RegIndex} : i ∈ regsUpTo x ↔ i ≤ x := by
  simp only [regsUpTo, List.mem_map, List.mem_range, BitVec.le_def]
  constructor
  · rintro ⟨j, hj, rfl⟩
    have := x.isLt
    simp only [BitVec.toNat_ofNat]; omega
  · intro h
    exact ⟨i.toNat, by omega, by simp⟩

@[simp] theorem regsUpTo_length (x : RegIndex) : (regsUpTo x).length = x.toNat + 1 := by
  simp [regsUpTo]

/-- The register at a position of `V0` to `Vx` has that position as its index. -/
theorem regsUpTo_getElem {x : RegIndex} {j : Nat} (hj : j < (regsUpTo x).length) :
    (regsUpTo x)[j].toNat = j := by
  have := x.isLt
  rw [regsUpTo_length] at hj
  simp [regsUpTo]; omega

theorem regsUpTo_nodup (x : RegIndex) : (regsUpTo x).Nodup := by
  rw [List.nodup_iff_injective_get]
  intro a b hab
  apply Fin.ext
  rw [← regsUpTo_getElem a.isLt, ← regsUpTo_getElem b.isLt]
  exact congrArg BitVec.toNat hab

/-- Positions of `V0` to `Vx` rise with the index. -/
theorem regsUpTo_sorted (x : RegIndex) :
    (regsUpTo x).Pairwise (fun i j => i.toNat < j.toNat) := by
  rw [List.pairwise_iff_getElem]
  intro i j hi hj hij
  rw [regsUpTo_getElem, regsUpTo_getElem]
  exact hij

/-- What a block load has done when it ends, in bounds or not: the registers with an address in memory
are loaded and nothing else has changed. -/
structure BlockLoaded (s : State) (base : Nat) (is : List RegIndex) (t : State) : Prop where
  loaded : ∀ i ∈ is, base + i.toNat < Config.memSize → t.reg i = s.byteAt (base + i.toNat)
  kept   : ∀ i ∈ is, Config.memSize ≤ base + i.toNat → t.reg i = s.reg i
  mem    : t.mem = s.mem
  frame  : SameBut (is.map Part.reg) s t

/-- A block load in ascending order goes through, or raises at its first address out of bounds with
the registers before it loaded. -/
theorem loadRegsFrom_spec : ∀ {is : List RegIndex} {base : Nat} {s : State},
    is.Pairwise (fun i j => i.toNat < j.toNat) →
    ∃ t, BlockLoaded s base is t ∧
      ((∀ i ∈ is, base + i.toNat < Config.memSize) ∧ loadRegsFrom base is s = .next t ∨
       ∃ i ∈ is, Config.memSize ≤ base + i.toNat ∧
        (∀ j ∈ is, j.toNat < i.toNat → base + j.toNat < Config.memSize) ∧
        loadRegsFrom base is s = raise (outOfBounds (base + i.toNat)) t)
  | [], base, s, _ =>
    ⟨s, ⟨by simp, by simp, rfl, SameBut.refl s _⟩, .inl ⟨by simp, rfl⟩⟩
  | i :: is, base, s, h => by
    have hi : ∀ j ∈ is, i.toNat < j.toNat := (List.pairwise_cons.mp h).1
    by_cases ha : base + i.toNat < Config.memSize
    · obtain ⟨t, ht, e⟩ := loadRegsFrom_spec (base := base)
        (s := s.setReg i (s.byteAt (base + i.toNat))) (List.pairwise_cons.mp h).2
      have hne : ∀ j ∈ is, j ≠ i := fun j hj e => by
        have := hi j hj; rw [e] at this; omega
      have first : t.reg i = s.byteAt (base + i.toNat) := by
        have := ht.frame.regs i (by
          simp only [List.mem_map, Part.reg.injEq, exists_eq_right]
          intro hm; exact absurd rfl (hne i hm))
        simpa using this
      refine ⟨t, ⟨?_, ?_, ht.mem, ?_⟩, ?_⟩
      · intro j hj hm
        rcases List.mem_cons.mp hj with rfl | hj
        · exact first
        · simpa using ht.loaded j hj hm
      · intro j hj hm
        rcases List.mem_cons.mp hj with rfl | hj
        · omega
        · simpa [hne j hj] using ht.kept j hj hm
      · refine SameBut.trans (t := s.setReg i (s.byteAt (base + i.toNat))) ?_ (ht.frame.mono ?_)
        · constructor <;> intros <;> simp_all
        · intro p hp
          simp only [List.map_cons, List.mem_cons]
          exact .inr hp
      · rw [loadRegsFrom, memRead_ok ha]
        rcases e with ⟨hall, e⟩ | ⟨j, hj, hm, hlow, e⟩
        · refine .inl ⟨fun j hj => ?_, e⟩
          rcases List.mem_cons.mp hj with rfl | hj
          · exact ha
          · exact hall j hj
        · refine .inr ⟨j, List.mem_cons_of_mem _ hj, hm, fun k hk hlt => ?_, e⟩
          rcases List.mem_cons.mp hk with rfl | hk
          · exact ha
          · exact hlow k hk hlt
    · refine ⟨s, ⟨?_, fun _ _ _ => rfl, rfl, SameBut.refl s _⟩, .inr ⟨i, by simp, by omega, ?_, ?_⟩⟩
      · intro j hj hm
        rcases List.mem_cons.mp hj with rfl | hj
        · omega
        · have := hi j hj; omega
      · intro j hj hlt
        rcases List.mem_cons.mp hj with rfl | hj
        · omega
        · have := hi j hj; omega
      · rw [loadRegsFrom, memRead_error (by omega)]

/-- A block load always answers a next state. -/
theorem loadRegsFrom_answers (base : Nat) : ∀ (is : List RegIndex) (s : State),
    ∃ t, loadRegsFrom base is s = .next t
  | [], s => ⟨s, rfl⟩
  | i :: is, s => by
    by_cases ha : base + i.toNat < Config.memSize
    · obtain ⟨t, e⟩ := loadRegsFrom_answers base is (s.setReg i (s.byteAt (base + i.toNat)))
      exact ⟨t, by rw [loadRegsFrom, memRead_ok ha]; exact e⟩
    · exact ⟨s.latch (outOfBounds (base + i.toNat)), by
        rw [loadRegsFrom, memRead_error (Nat.not_lt.mp ha)]; rfl⟩

/-- A block load that ends leaves the latch alone or raises at an address of its own, out of bounds. -/
theorem loadRegsFrom_latch {base : Nat} : ∀ {is : List RegIndex} {s t : State},
    loadRegsFrom base is s = .next t →
    t.fault = s.fault ∨ ∃ b, Config.memSize ≤ b ∧ b < base + 16 ∧ t.fault = latched 2 b
  | [], s, t, h => by
    injection h with h
    exact .inl (h ▸ rfl)
  | i :: is, s, t, h => by
    by_cases ha : base + i.toNat < Config.memSize
    · rw [loadRegsFrom, memRead_ok ha] at h
      exact loadRegsFrom_latch (s := s.setReg i _) h
    · rw [loadRegsFrom, memRead_error (Nat.not_lt.mp ha)] at h
      injection h with h
      have := i.isLt
      exact .inr ⟨base + i.toNat, by omega, by omega, h ▸ rfl⟩

/-! ### Faults -/

/-- The first failing address of an access fits the latch's 17 bits. -/
theorem outOfBounds_info {a : Nat} (h : a < 0x20000) : (outOfBounds a).info.toNat = a := by
  simp [outOfBounds, Fault.info, Nat.mod_eq_of_lt h]

/-- Taking a fault changes the latch alone. -/
theorem latch_frame (s : State) (f : Fault) : SameBut [.fault] s (s.latch f) := by
  constructor <;> intros <;> simp_all

/-! ### The end of a cycle -/

/-- A timer after the tick, as a number: one less, and 0 stays 0. -/
theorem tickTimer_toNat (b : Byte) : (tickTimer b).toNat = b.toNat - 1 := by
  unfold tickTimer
  split
  · rename_i h; simp [h]
  · rename_i h
    have : b.toNat ≠ 0 := fun e => h (BitVec.eq_of_toNat_eq (by simpa using e))
    have := b.isLt
    have one : (1 : Byte).toNat = 1 := rfl
    rw [BitVec.toNat_sub, one]
    omega

/-- The tick changes the timers alone. -/
theorem tick_frame (s : State) : SameBut [.dt, .st] s s.tick := by
  constructor <;> intros <;> simp_all

/-- The end of a cycle: nothing more after a fault or in a waiting cycle, the tick otherwise. -/
theorem endCycle_eq (waiting : Bool) (t : State) :
    endCycle Config.waitTicksTimers waiting t =
      if t.fault.valid ∨ waiting then t else t.tick := by
  cases h : t.fault.valid <;> cases waiting <;> simp [endCycle, Config.waitTicksTimers, h]

/-- Whatever the end of a cycle does, it touches the timers alone. -/
theorem endCycle_frame (waitTicks waiting : Bool) (t : State) :
    SameBut [.dt, .st] t (endCycle waitTicks waiting t) := by
  unfold endCycle
  split
  · exact SameBut.refl t _
  · exact tick_frame t

end Sys2Proof.Machine
end

