-- ==== Sys2Proof/Laws/Cycle.lean ====
section
/-! SUPPORT. What a step can do, said once (40_cycle.md R129): it is the identity of a halted block, or
a fetch fault, or an unassigned opcode, or `exec` of the decoded instruction followed by the end of the
cycle. -/

namespace Sys2Proof.Machine

variable {s : State}

/-! ### What the opcodes under a mask decode to -/

/-- The opcodes of a row that requires `nibble` alone. -/
theorem decodesUnder_nibble {m : Word} (t : OpType) {a : BitVec 4}
    (h : { op := t, nibble := a } ∈ matchRules) (ha : m.extractLsb' 12 4 = a) :
    DecodesUnder 0xF000 m (withOperands t) := fun w hw => by
  have := nibble_of_mask hw
  rw [decodeWord, classify_of_accepts h (by simp [MatchRule.accepts, this, ha])]
  rfl

/-- The opcodes of a row that requires `nibble` and `n`. -/
theorem decodesUnder_nibble_n {m : Word} (t : OpType) {a n : BitVec 4}
    (h : { op := t, nibble := a, n := some n } ∈ matchRules) (ha : m.extractLsb' 12 4 = a)
    (hn : m.extractLsb' 0 4 = n) : DecodesUnder 0xF00F m (withOperands t) := fun w hw => by
  have := nibble_n_of_mask hw
  rw [decodeWord, classify_of_accepts h (by simp [MatchRule.accepts, this, ha, hn])]
  rfl

/-- The opcodes of a row that requires `nibble` and `nn`. -/
theorem decodesUnder_nibble_nn {m : Word} (t : OpType) {a : BitVec 4} {nn : Byte}
    (h : { op := t, nibble := a, nn := some nn } ∈ matchRules) (ha : m.extractLsb' 12 4 = a)
    (hn : m.extractLsb' 0 8 = nn) : DecodesUnder 0xF0FF m (withOperands t) := fun w hw => by
  have := nibble_nn_of_mask hw
  rw [decodeWord, classify_of_accepts h (by simp [MatchRule.accepts, this, ha, hn])]
  rfl

/-! ### The cycle -/

/-- A fetch inside memory gives the opcode at `pc`. -/
theorem fetchOpcode_ok (h : s.pc.toNat + 1 < Config.memSize) :
    fetchOpcode s = .ok (opcodeAtPc s) := by
  simp only [fetchOpcode, memRead_ok (s := s) (Nat.lt_of_succ_lt h), memRead_ok h]
  rfl

/-- A fetch that leaves memory faults at its first address of 4096 or more. -/
theorem fetchOpcode_error (h : Config.memSize ≤ s.pc.toNat + 1) :
    fetchOpcode s = .error (outOfBounds (max s.pc.toNat Config.memSize)) := by
  by_cases hp : s.pc.toNat < Config.memSize
  · have : max s.pc.toNat Config.memSize = s.pc.toNat + 1 := by omega
    simp only [fetchOpcode, memRead_ok hp, memRead_error h, this]
  · have : max s.pc.toNat Config.memSize = s.pc.toNat := by omega
    simp only [fetchOpcode, memRead_error (Nat.not_lt.mp hp), this]

theorem step_halted (h : s.fault.valid = true) : step s = .next s := by simp [step, h]

theorem step_fetch_fault (h : Running s) (hp : Config.memSize ≤ s.pc.toNat + 1) :
    step s = raise (outOfBounds (max s.pc.toNat Config.memSize)) s := by
  simp only [step, cycle, fetchOpcode_error hp, show s.fault.valid = false from h]
  rfl

theorem step_unassigned (h : Running s) (hp : s.pc.toNat + 1 < Config.memSize)
    (hd : decodeWord (opcodeAtPc s) = none) :
    step s = raise (.unhandledOperation (opcodeAtPc s)) s.advancePc := by
  simp only [step, cycle, runOpcode, fetchOpcode_ok hp, hd, show s.fault.valid = false from h]
  rfl

theorem step_fetches (h : Running s) {i : Instr} (hi : Fetches s i) :
    step s = finish (waits i s) (exec i s.advancePc) := by
  simp only [step, cycle, runOpcode, fetchOpcode_ok hi.1, hi.2, show s.fault.valid = false from h]
  rfl

/-- Every step is one of four. -/
theorem step_cases (s : State) :
    (s.fault.valid = true ∧ step s = .next s) ∨
    (Running s ∧ Config.memSize ≤ s.pc.toNat + 1 ∧
      step s = raise (outOfBounds (max s.pc.toNat Config.memSize)) s) ∨
    (Running s ∧ s.pc.toNat + 1 < Config.memSize ∧ decodeWord (opcodeAtPc s) = none ∧
      step s = raise (.unhandledOperation (opcodeAtPc s)) s.advancePc) ∨
    (∃ i, Running s ∧ Fetches s i ∧ step s = finish (waits i s) (exec i s.advancePc)) := by
  by_cases h : s.fault.valid = true
  · exact .inl ⟨h, step_halted h⟩
  · have hr : Running s := by simpa [Running] using h
    by_cases hp : s.pc.toNat + 1 < Config.memSize
    · cases hd : decodeWord (opcodeAtPc s) with
      | none => exact .inr (.inr (.inl ⟨hr, hp, rfl, step_unassigned hr hp hd⟩))
      | some i => exact .inr (.inr (.inr ⟨i, hr, ⟨hp, hd⟩, step_fetches hr ⟨hp, hd⟩⟩))
    · exact .inr (.inl ⟨hr, by omega, step_fetch_fault hr (by omega)⟩)

/-- The next state of a finished cycle is that of `exec` with the end of the cycle applied. -/
theorem finish_eq_next {waiting : Bool} {r : Result} {t : State} :
    finish waiting r = .next t ↔
      ∃ u, r = .next u ∧ t = if u.fault.valid ∨ waiting then u else u.tick := by
  cases r with
  | next u =>
    simp only [finish, endCycle_eq]
    constructor
    · intro h
      injection h with h
      exact ⟨u, rfl, h.symm⟩
    · rintro ⟨v, hv, rfl⟩
      injection hv with hv
      rw [hv]
  | fault f => simp [finish]
  | refused f => simp [finish]

/-- A waiting cycle is that of WAIT_FOR_KEY with no key held. -/
theorem waits_iff {i : Instr} : waits i s = true ↔ i.opType = .waitForKey ∧ s.key = none := by
  simp [waits]

/-- Waiting does not depend on `pc`. -/
@[simp] theorem waits_advancePc (i : Instr) : waits i s.advancePc = waits i s := rfl

/-! ### The host's moves -/

theorem hostMoves_cons {m : HostMove} {ms : List HostMove} {t : State} (h : hostMove m s = .next t) :
    hostMoves (m :: ms) s = hostMoves ms t := by
  simp [hostMoves, h]

end Sys2Proof.Machine
end

