-- ==== Sys2Proof/Laws/Draw.lean ====
section
/-! SUPPORT. What the draw procedure does, said once: a pixel is toggled exactly where a 1 bit of the
sprite covers it, and the collision is a covered pixel that was on (44_display.md R211). -/

namespace Sys2Proof.Machine

/-- A framebuffer is its pixels. -/
theorem Framebuffer.ext_pixel {fb fb' : Framebuffer} (h : ∀ r c, fb.pixel r c = fb'.pixel r c) :
    fb = fb' :=
  Vector.ext fun r hr => Vector.ext fun c hc => h ⟨r, hr⟩ ⟨c, hc⟩

/-- A toggled pixel changes, and every other pixel stays. -/
theorem Framebuffer.pixel_toggle (fb : Framebuffer) (r r' : Fin 32) (c c' : Fin 64) :
    (fb.toggle r c).pixel r' c' = (fb.pixel r' c' ^^ (r == r' && c == c')) := by
  unfold Framebuffer.toggle Framebuffer.pixel
  by_cases hr : r = r'
  · subst hr
    by_cases hc : c = c'
    · subst hc; simp
    · have : c.val ≠ c'.val := fun e => hc (Fin.ext e)
      simp [this, beq_false_of_ne hc]
  · have : r.val ≠ r'.val := fun e => hr (Fin.ext e)
    simp [this, beq_false_of_ne hr]

/-- Every pixel of the cleared framebuffer is off. -/
@[simp] theorem Framebuffer.pixel_clear (r : Fin 32) (c : Fin 64) :
    Framebuffer.clear.pixel r c = false := by
  simp [Framebuffer.clear, Framebuffer.pixel]

/-- Columns below 64 land on different columns of the screen. -/
theorem wrapCol_inj {px : Byte} {i j : Nat} (hi : i < 64) (hj : j < 64)
    (h : wrapCol px i = wrapCol px j) : i = j := by
  have := congrArg Fin.val h
  simp only [wrapCol] at this
  omega

/-- Rows below 32 land on different rows of the screen. -/
theorem wrapRow_inj {py : Byte} {i j : Nat} (hi : i < 32) (hj : j < 32)
    (h : wrapRow py i = wrapRow py j) : i = j := by
  have := congrArg Fin.val h
  simp only [wrapRow] at this
  omega

/-! ### One row -/

/-- Whether a byte drawn over some columns covers a column of the screen. -/
def rowCovers (px : Byte) (b : Byte) (cols : List Nat) (c : Fin 64) : Bool :=
  cols.any fun col => wrapCol px col == c && spriteBit b col

/-- A pixel after some bits of a row: toggled where the row covers it. -/
theorem pixel_foldl_drawBit {px : Byte} {r : Fin 32} {b : Byte} : ∀ {cols : List Nat} {d : Drawing},
    cols.Nodup → (∀ i ∈ cols, i < 64) → ∀ r' c,
    (cols.foldl (drawBit px r b) d).fb.pixel r' c =
      (d.fb.pixel r' c ^^ (r == r' && rowCovers px b cols c))
  | [], d, _, _, r', c => by simp [rowCovers]
  | i :: cols, d, hn, hb, r', c => by
    have ih := pixel_foldl_drawBit (px := px) (r := r) (b := b) (d := drawBit px r b d i)
      (List.nodup_cons.mp hn).2 (fun j hj => hb j (List.mem_cons_of_mem _ hj)) r' c
    rw [List.foldl_cons, ih]
    have hnot : wrapCol px i = c → rowCovers px b cols c = false := by
      intro hc
      simp only [rowCovers, List.any_eq_false, Bool.and_eq_true, beq_iff_eq, not_and]
      intro j hj hjc
      have : i = j := wrapCol_inj (hb i (by simp)) (hb j (List.mem_cons_of_mem _ hj)) (hc.trans hjc.symm)
      exact absurd (this ▸ hj) (List.nodup_cons.mp hn).1
    unfold drawBit
    by_cases hs : spriteBit b i
    · simp only [hs, if_true, Framebuffer.pixel_toggle]
      have hcov : rowCovers px b (i :: cols) c = (wrapCol px i == c || rowCovers px b cols c) := by
        simp [rowCovers, hs]
      rw [hcov]
      by_cases hr : r = r' <;> by_cases hc : wrapCol px i = c
      · simp [hr, hc, hnot hc]
      · simp [beq_false_of_ne hc]
      · simp [beq_false_of_ne hr]
      · simp [beq_false_of_ne hr]
    · have hcov : rowCovers px b (i :: cols) c = rowCovers px b cols c := by
        simp [rowCovers, hs]
      simp [hs, hcov]

/-- The collision after some bits of a row: as before, or a covered pixel of the row was on. -/
theorem collision_foldl_drawBit {px : Byte} {r : Fin 32} {b : Byte} :
    ∀ {cols : List Nat} {d : Drawing}, cols.Nodup → (∀ i ∈ cols, i < 64) →
    ((cols.foldl (drawBit px r b) d).collision = true ↔
      d.collision = true ∨ ∃ c, rowCovers px b cols c = true ∧ d.fb.pixel r c = true)
  | [], d, _, _ => by simp [rowCovers]
  | i :: cols, d, hn, hb => by
    have ih := collision_foldl_drawBit (px := px) (r := r) (b := b) (d := drawBit px r b d i)
      (List.nodup_cons.mp hn).2 (fun j hj => hb j (List.mem_cons_of_mem _ hj))
    rw [List.foldl_cons, ih]
    have hnot : rowCovers px b cols (wrapCol px i) = false := by
      simp only [rowCovers, List.any_eq_false, Bool.and_eq_true, beq_iff_eq, not_and]
      intro j hj hjc
      have : i = j := wrapCol_inj (hb i (by simp)) (hb j (List.mem_cons_of_mem _ hj)) hjc.symm
      exact absurd (this ▸ hj) (List.nodup_cons.mp hn).1
    unfold drawBit
    by_cases hs : spriteBit b i
    · have hcov : ∀ c, rowCovers px b (i :: cols) c = (wrapCol px i == c || rowCovers px b cols c) := by
        intro c; simp [rowCovers, hs]
      simp only [hs, if_true, Framebuffer.pixel_toggle, hcov]
      constructor
      · rintro (h | ⟨c, h, hp⟩)
        · rcases Bool.or_eq_true_iff.mp h with h | h
          · exact .inl h
          · exact .inr ⟨wrapCol px i, by simp, h⟩
        · refine .inr ⟨c, by simp [h], ?_⟩
          have : wrapCol px i ≠ c := fun e => by rw [← e, hnot] at h; exact absurd h (by simp)
          simpa [beq_false_of_ne this] using hp
      · rintro (h | ⟨c, h, hp⟩)
        · exact .inl (by simp [h])
        · by_cases hc : wrapCol px i = c
          · exact .inl (by simp [hc, hp])
          · refine .inr ⟨c, by simpa [hc] using h, by simpa [beq_false_of_ne hc] using hp⟩
    · have hcov : ∀ c, rowCovers px b (i :: cols) c = rowCovers px b cols c := by
        intro c; simp [rowCovers, hs]
      simp [hs, hcov]

/-- The eight columns of a row. -/
theorem range_eight : List.range 8 = [0, 1, 2, 3, 4, 5, 6, 7] := rfl

/-- A pixel after one row. -/
theorem pixel_drawRow (px : Byte) (r : Fin 32) (b : Byte) (d : Drawing) (r' : Fin 32) (c : Fin 64) :
    (drawRow px r b d).fb.pixel r' c =
      (d.fb.pixel r' c ^^ (r == r' && rowCovers px b (List.range 8) c)) :=
  pixel_foldl_drawBit (by decide) (by decide) r' c

/-- The collision after one row. -/
theorem collision_drawRow (px : Byte) (r : Fin 32) (b : Byte) (d : Drawing) :
    ((drawRow px r b d).collision = true ↔ d.collision = true ∨
      ∃ c, rowCovers px b (List.range 8) c = true ∧ d.fb.pixel r c = true) :=
  collision_foldl_drawBit (by decide) (by decide)

/-! ### All rows -/

/-- What the rows of a sprite from row `row` down cover. -/
def rowsCover (px py : Byte) (r : Fin 32) (c : Fin 64) : Nat → List Byte → Bool
  | _, [] => false
  | row, b :: bs =>
    (wrapRow py row == r && rowCovers px b (List.range 8) c) || rowsCover px py r c (row + 1) bs

/-- Rows whose screen row is not `r` cover nothing of it. -/
theorem rowsCover_false {px py : Byte} {r : Fin 32} {c : Fin 64} : ∀ {bs : List Byte} {row : Nat},
    (∀ i, row ≤ i → i < row + bs.length → wrapRow py i ≠ r) → rowsCover px py r c row bs = false
  | [], _, _ => rfl
  | b :: bs, row, h => by
    have h0 : wrapRow py row ≠ r := h row (le_refl _) (by simp)
    have ih := rowsCover_false (px := px) (c := c) (bs := bs) (row := row + 1) fun i h1 h2 =>
      h i (by omega) (by simp only [List.length_cons]; omega)
    simp [rowsCover, h0, ih]

/-- A pixel after the rows of a sprite: toggled where they cover it. -/
theorem pixel_drawRows {px py : Byte} : ∀ {bs : List Byte} {row : Nat} {d : Drawing},
    row + bs.length ≤ 32 → ∀ r c, (drawRows px py row bs d).fb.pixel r c =
      (d.fb.pixel r c ^^ rowsCover px py r c row bs)
  | [], _, d, _, r, c => by simp [drawRows, rowsCover]
  | b :: bs, row, d, h, r, c => by
    simp only [List.length_cons] at h
    rw [drawRows, pixel_drawRows (by omega), pixel_drawRow]
    by_cases hr : wrapRow py row = r
    · have : rowsCover px py r c (row + 1) bs = false := rowsCover_false fun i h1 h2 e =>
        absurd (wrapRow_inj (by omega) (by omega) (hr.trans e.symm)) (by omega)
      simp [rowsCover, hr, this]
    · simp [rowsCover, beq_false_of_ne hr]

/-- The collision after the rows of a sprite: as before, or a covered pixel was on. -/
theorem collision_drawRows {px py : Byte} : ∀ {bs : List Byte} {row : Nat} {d : Drawing},
    row + bs.length ≤ 32 → ((drawRows px py row bs d).collision = true ↔
      d.collision = true ∨ ∃ r c, rowsCover px py r c row bs = true ∧ d.fb.pixel r c = true)
  | [], _, d, _ => by simp [drawRows, rowsCover]
  | b :: bs, row, d, h => by
    simp only [List.length_cons] at h
    have hfalse : ∀ c, rowsCover px py (wrapRow py row) c (row + 1) bs = false := fun c =>
      rowsCover_false fun i h1 h2 e =>
        absurd (wrapRow_inj (by omega) (by omega) e) (by omega)
    rw [drawRows, collision_drawRows (by omega), collision_drawRow]
    constructor
    · rintro ((h | ⟨c, hc, hp⟩) | ⟨r, c, hc, hp⟩)
      · exact .inl h
      · exact .inr ⟨wrapRow py row, c, by simp [rowsCover, hc], hp⟩
      · refine .inr ⟨r, c, by simp [rowsCover, hc], ?_⟩
        have : wrapRow py row ≠ r := fun e => by rw [← e, hfalse] at hc; exact absurd hc (by simp)
        simpa [pixel_drawRow, beq_false_of_ne this] using hp
    · rintro (h | ⟨r, c, hc, hp⟩)
      · exact .inl (.inl h)
      · by_cases hr : wrapRow py row = r
        · subst hr
          refine .inl (.inr ⟨c, ?_, hp⟩)
          simpa [rowsCover, hfalse] using hc
        · refine .inr ⟨r, c, by simpa [rowsCover, hr] using hc, ?_⟩
          simpa [pixel_drawRow, beq_false_of_ne hr] using hp

/-- The rows of a sprite cover what `spriteCovers` says, row by row. -/
theorem rowsCover_eq {px py : Byte} {r : Fin 32} {c : Fin 64} : ∀ (bs : List Byte) (row : Nat),
    rowsCover px py r c row bs = (List.range bs.length).any fun j =>
      wrapRow py (row + j) == r && rowCovers px (bs.getD j 0) (List.range 8) c
  | [], _ => rfl
  | b :: bs, row => by
    rw [rowsCover, rowsCover_eq bs (row + 1), List.length_cons,
      List.range_succ_eq_map (n := bs.length), List.any_cons, List.any_map]
    simp [Function.comp_def, Nat.add_assoc, Nat.add_comm 1]

/-- A sprite bit as the number `(b >> (7 - col)) mod 2`. -/
theorem spriteBit_eq (b : Byte) (col : Nat) :
    spriteBit b col = decide (b.toNat / 2 ^ (7 - col) % 2 = 1) := by
  rw [spriteBit, BitVec.getLsbD, Nat.testBit_eq_decide_div_mod_eq]

/-- The rule's own numbers and the draw's rows and columns say the same of a sprite. -/
theorem spriteCovers_eq (sprite : List Byte) (px py : Byte) (r : Fin 32) (c : Fin 64) :
    spriteCovers sprite px py r c = rowsCover px py r c 0 sprite := by
  have row (j : Nat) : (wrapRow py (0 + j) == r) = decide ((py.toNat + j) % 32 = r.val) := by
    rw [Bool.eq_iff_iff]; simp [wrapRow, Fin.ext_iff]
  have col (j : Nat) : (wrapCol px j == c) = decide ((px.toNat + j) % 64 = c.val) := by
    rw [Bool.eq_iff_iff]; simp [wrapCol, Fin.ext_iff]
  have pull (p : Bool) (q : Nat → Bool) (l : List Nat) : (l.any fun j => p && q j) = (p && l.any q) := by
    cases p <;> simp
  rw [rowsCover_eq]
  simp only [spriteCovers, rowCovers, row, col, spriteBit_eq, Bool.and_assoc, pull]

/-- A pixel after a draw: toggled exactly where a 1 bit of the sprite covers it. -/
theorem pixel_drawSprite {fb : Framebuffer} {sprite : List Byte} (h : sprite.length ≤ 32)
    (px py : Byte) (r : Fin 32) (c : Fin 64) :
    (drawSprite fb sprite px py).fb.pixel r c = (fb.pixel r c ^^ spriteCovers sprite px py r c) := by
  rw [spriteCovers_eq]
  exact pixel_drawRows (by simpa using h) r c

/-- The collision of a draw: some covered pixel was on. -/
theorem collision_drawSprite {fb : Framebuffer} {sprite : List Byte} (h : sprite.length ≤ 32)
    (px py : Byte) : ((drawSprite fb sprite px py).collision = true ↔
      ∃ r c, spriteCovers sprite px py r c = true ∧ fb.pixel r c = true) := by
  simp only [spriteCovers_eq]
  rw [drawSprite, collision_drawRows (by simpa using h)]
  simp

end Sys2Proof.Machine
end

