-- ==== Sys2Proof/Laws/Flags.lean ====
section
/-! SUPPORT. The flag computations and the byte operations of 42_register_alu.md as numbers. -/

namespace Sys2Proof.Machine

@[simp] theorem flagByte_toNat (c : Bool) : (flagByte c).toNat = if c then 1 else 0 := by
  cases c <;> rfl

/-- A byte difference is the difference modulo 256. -/
theorem sub_toNat (a b : Byte) : (a - b).toNat = subMod a.toNat b.toNat := by
  have := a.isLt
  have := b.isLt
  rw [BitVec.toNat_sub]
  unfold subMod
  congr 1
  omega

theorem lowBitFlag_toNat (b : Byte) : (lowBitFlag b).toNat = b.toNat % 2 := by
  revert b; decide

theorem highBitFlag_toNat (b : Byte) : (highBitFlag b).toNat = b.toNat / 128 := by
  revert b; decide

/-- `b >> 1`. -/
theorem shiftRight_toNat (b : Byte) : (b >>> 1).toNat = b.toNat / 2 := by
  revert b; decide

/-- `(b << 1) mod 256`. -/
theorem shiftLeft_toNat (b : Byte) : (b <<< 1).toNat = b.toNat * 2 % 256 := by
  revert b; decide

/-- SHIFT_RIGHT of the flag it has just written. -/
theorem shiftRight_lowBitFlag (b : Byte) : lowBitFlag b >>> 1 = 0 := by
  revert b; decide

/-- SHIFT_LEFT of the flag it has just written. -/
theorem shiftLeft_highBitFlag (b : Byte) : (highBitFlag b <<< 1).toNat = 2 * (b.toNat / 128) := by
  revert b; decide

end Sys2Proof.Machine
end

