-- ==== Sys2Proof/Laws/PerInstr.lean ====
section
/-! SUPPORT. The statement made for every instruction, one lemma per constructor. -/

-- One thread a file: with a thread for every theorem the file needs more memory than it is given.
set_option Elab.async false

namespace Sys2Proof.Laws.RowMatch

/-- The opcode of an instruction is accepted by the row of its own operation type in the rule table,
and its operands are read back from the fields (30_encoding.md R91, R95). -/
def Statement (i : Instr) : Prop :=
  (∃ r ∈ matchRules, r.op = i.opType ∧ r.accepts (decodeFields (encode i)) = true) ∧
  withOperands i.opType (decodeFields (encode i)) = i

theorem clearScreen (x : RegIndex) : Statement (.clearScreen x) := by
  constructor
  · refine ⟨{ op := .clearScreen, nibble := 0x0, nn := some 0xE0 }, by decide, rfl, ?_⟩
    simp [encode, decodeFields_xnn, MatchRule.accepts]
  · simp [encode, decodeFields_xnn, Instr.opType, withOperands]

theorem ret (x : RegIndex) : Statement (.ret x) := by
  constructor
  · refine ⟨{ op := .ret, nibble := 0x0, nn := some 0xEE }, by decide, rfl, ?_⟩
    simp [encode, decodeFields_xnn, MatchRule.accepts]
  · simp [encode, decodeFields_xnn, Instr.opType, withOperands]

theorem jump (nnn : Addr12) : Statement (.jump nnn) := by
  constructor
  · refine ⟨{ op := .jump, nibble := 0x1 }, by decide, rfl, ?_⟩
    simp [encode, decodeFields_nnn, MatchRule.accepts]
  · simp [encode, decodeFields_nnn, Instr.opType, withOperands]

theorem call (nnn : Addr12) : Statement (.call nnn) := by
  constructor
  · refine ⟨{ op := .call, nibble := 0x2 }, by decide, rfl, ?_⟩
    simp [encode, decodeFields_nnn, MatchRule.accepts]
  · simp [encode, decodeFields_nnn, Instr.opType, withOperands]

theorem skipIfVxNnEq (x : RegIndex) (nn : Byte) : Statement (.skipIfVxNnEq x nn) := by
  constructor
  · refine ⟨{ op := .skipIfVxNnEq, nibble := 0x3 }, by decide, rfl, ?_⟩
    simp [encode, decodeFields_xnn, MatchRule.accepts]
  · simp [encode, decodeFields_xnn, Instr.opType, withOperands]

theorem skipIfVxNnNeq (x : RegIndex) (nn : Byte) : Statement (.skipIfVxNnNeq x nn) := by
  constructor
  · refine ⟨{ op := .skipIfVxNnNeq, nibble := 0x4 }, by decide, rfl, ?_⟩
    simp [encode, decodeFields_xnn, MatchRule.accepts]
  · simp [encode, decodeFields_xnn, Instr.opType, withOperands]

theorem skipIfVxVyEq (x y : RegIndex) : Statement (.skipIfVxVyEq x y) := by
  constructor
  · refine ⟨{ op := .skipIfVxVyEq, nibble := 0x5, n := some 0x0 }, by decide, rfl, ?_⟩
    simp [encode, decodeFields_xyn, MatchRule.accepts]
  · simp [encode, decodeFields_xyn, Instr.opType, withOperands]

theorem setRegister (x : RegIndex) (nn : Byte) : Statement (.setRegister x nn) := by
  constructor
  · refine ⟨{ op := .setRegister, nibble := 0x6 }, by decide, rfl, ?_⟩
    simp [encode, decodeFields_xnn, MatchRule.accepts]
  · simp [encode, decodeFields_xnn, Instr.opType, withOperands]

theorem add (x : RegIndex) (nn : Byte) : Statement (.add x nn) := by
  constructor
  · refine ⟨{ op := .add, nibble := 0x7 }, by decide, rfl, ?_⟩
    simp [encode, decodeFields_xnn, MatchRule.accepts]
  · simp [encode, decodeFields_xnn, Instr.opType, withOperands]

theorem setVx (x y : RegIndex) : Statement (.setVx x y) := by
  constructor
  · refine ⟨{ op := .setVx, nibble := 0x8, n := some 0x0 }, by decide, rfl, ?_⟩
    simp [encode, decodeFields_xyn, MatchRule.accepts]
  · simp [encode, decodeFields_xyn, Instr.opType, withOperands]

theorem or (x y : RegIndex) : Statement (.or x y) := by
  constructor
  · refine ⟨{ op := .or, nibble := 0x8, n := some 0x1 }, by decide, rfl, ?_⟩
    simp [encode, decodeFields_xyn, MatchRule.accepts]
  · simp [encode, decodeFields_xyn, Instr.opType, withOperands]

theorem and (x y : RegIndex) : Statement (.and x y) := by
  constructor
  · refine ⟨{ op := .and, nibble := 0x8, n := some 0x2 }, by decide, rfl, ?_⟩
    simp [encode, decodeFields_xyn, MatchRule.accepts]
  · simp [encode, decodeFields_xyn, Instr.opType, withOperands]

theorem xor (x y : RegIndex) : Statement (.xor x y) := by
  constructor
  · refine ⟨{ op := .xor, nibble := 0x8, n := some 0x3 }, by decide, rfl, ?_⟩
    simp [encode, decodeFields_xyn, MatchRule.accepts]
  · simp [encode, decodeFields_xyn, Instr.opType, withOperands]

theorem addVy (x y : RegIndex) : Statement (.addVy x y) := by
  constructor
  · refine ⟨{ op := .addVy, nibble := 0x8, n := some 0x4 }, by decide, rfl, ?_⟩
    simp [encode, decodeFields_xyn, MatchRule.accepts]
  · simp [encode, decodeFields_xyn, Instr.opType, withOperands]

theorem subVy (x y : RegIndex) : Statement (.subVy x y) := by
  constructor
  · refine ⟨{ op := .subVy, nibble := 0x8, n := some 0x5 }, by decide, rfl, ?_⟩
    simp [encode, decodeFields_xyn, MatchRule.accepts]
  · simp [encode, decodeFields_xyn, Instr.opType, withOperands]

theorem shiftRight (x y : RegIndex) : Statement (.shiftRight x y) := by
  constructor
  · refine ⟨{ op := .shiftRight, nibble := 0x8, n := some 0x6 }, by decide, rfl, ?_⟩
    simp [encode, decodeFields_xyn, MatchRule.accepts]
  · simp [encode, decodeFields_xyn, Instr.opType, withOperands]

theorem subn (x y : RegIndex) : Statement (.subn x y) := by
  constructor
  · refine ⟨{ op := .subn, nibble := 0x8, n := some 0x7 }, by decide, rfl, ?_⟩
    simp [encode, decodeFields_xyn, MatchRule.accepts]
  · simp [encode, decodeFields_xyn, Instr.opType, withOperands]

theorem shiftLeft (x y : RegIndex) : Statement (.shiftLeft x y) := by
  constructor
  · refine ⟨{ op := .shiftLeft, nibble := 0x8, n := some 0xE }, by decide, rfl, ?_⟩
    simp [encode, decodeFields_xyn, MatchRule.accepts]
  · simp [encode, decodeFields_xyn, Instr.opType, withOperands]

theorem skipIfVxVyNeq (x y : RegIndex) : Statement (.skipIfVxVyNeq x y) := by
  constructor
  · refine ⟨{ op := .skipIfVxVyNeq, nibble := 0x9, n := some 0x0 }, by decide, rfl, ?_⟩
    simp [encode, decodeFields_xyn, MatchRule.accepts]
  · simp [encode, decodeFields_xyn, Instr.opType, withOperands]

theorem setIndex (nnn : Addr12) : Statement (.setIndex nnn) := by
  constructor
  · refine ⟨{ op := .setIndex, nibble := 0xa }, by decide, rfl, ?_⟩
    simp [encode, decodeFields_nnn, MatchRule.accepts]
  · simp [encode, decodeFields_nnn, Instr.opType, withOperands]

theorem random (x : RegIndex) (nn : Byte) : Statement (.random x nn) := by
  constructor
  · refine ⟨{ op := .random, nibble := 0xc }, by decide, rfl, ?_⟩
    simp [encode, decodeFields_xnn, MatchRule.accepts]
  · simp [encode, decodeFields_xnn, Instr.opType, withOperands]

theorem display (x y : RegIndex) (n : BitVec 4) : Statement (.display x y n) := by
  constructor
  · refine ⟨{ op := .display, nibble := 0xd }, by decide, rfl, ?_⟩
    simp [encode, decodeFields_xyn, MatchRule.accepts]
  · simp [encode, decodeFields_xyn, Instr.opType, withOperands]

theorem skipIfKeyEq (x : RegIndex) : Statement (.skipIfKeyEq x) := by
  constructor
  · refine ⟨{ op := .skipIfKeyEq, nibble := 0xe, nn := some 0x9E }, by decide, rfl, ?_⟩
    simp [encode, decodeFields_xnn, MatchRule.accepts]
  · simp [encode, decodeFields_xnn, Instr.opType, withOperands]

theorem skipIfKeyNeq (x : RegIndex) : Statement (.skipIfKeyNeq x) := by
  constructor
  · refine ⟨{ op := .skipIfKeyNeq, nibble := 0xe, nn := some 0xA1 }, by decide, rfl, ?_⟩
    simp [encode, decodeFields_xnn, MatchRule.accepts]
  · simp [encode, decodeFields_xnn, Instr.opType, withOperands]

theorem setVxFromDelay (x : RegIndex) : Statement (.setVxFromDelay x) := by
  constructor
  · refine ⟨{ op := .setVxFromDelay, nibble := 0xf, nn := some 0x07 }, by decide, rfl, ?_⟩
    simp [encode, decodeFields_xnn, MatchRule.accepts]
  · simp [encode, decodeFields_xnn, Instr.opType, withOperands]

theorem waitForKey (x : RegIndex) : Statement (.waitForKey x) := by
  constructor
  · refine ⟨{ op := .waitForKey, nibble := 0xf, nn := some 0x0A }, by decide, rfl, ?_⟩
    simp [encode, decodeFields_xnn, MatchRule.accepts]
  · simp [encode, decodeFields_xnn, Instr.opType, withOperands]

theorem setDelayFromVx (x : RegIndex) : Statement (.setDelayFromVx x) := by
  constructor
  · refine ⟨{ op := .setDelayFromVx, nibble := 0xf, nn := some 0x15 }, by decide, rfl, ?_⟩
    simp [encode, decodeFields_xnn, MatchRule.accepts]
  · simp [encode, decodeFields_xnn, Instr.opType, withOperands]

theorem setSoundFromVx (x : RegIndex) : Statement (.setSoundFromVx x) := by
  constructor
  · refine ⟨{ op := .setSoundFromVx, nibble := 0xf, nn := some 0x18 }, by decide, rfl, ?_⟩
    simp [encode, decodeFields_xnn, MatchRule.accepts]
  · simp [encode, decodeFields_xnn, Instr.opType, withOperands]

theorem addVxToIndex (x : RegIndex) : Statement (.addVxToIndex x) := by
  constructor
  · refine ⟨{ op := .addVxToIndex, nibble := 0xf, nn := some 0x1E }, by decide, rfl, ?_⟩
    simp [encode, decodeFields_xnn, MatchRule.accepts]
  · simp [encode, decodeFields_xnn, Instr.opType, withOperands]

theorem font (x : RegIndex) : Statement (.font x) := by
  constructor
  · refine ⟨{ op := .font, nibble := 0xf, nn := some 0x29 }, by decide, rfl, ?_⟩
    simp [encode, decodeFields_xnn, MatchRule.accepts]
  · simp [encode, decodeFields_xnn, Instr.opType, withOperands]

theorem bcd (x : RegIndex) : Statement (.bcd x) := by
  constructor
  · refine ⟨{ op := .bcd, nibble := 0xf, nn := some 0x33 }, by decide, rfl, ?_⟩
    simp [encode, decodeFields_xnn, MatchRule.accepts]
  · simp [encode, decodeFields_xnn, Instr.opType, withOperands]

theorem loadRegisters (x : RegIndex) : Statement (.loadRegisters x) := by
  constructor
  · refine ⟨{ op := .loadRegisters, nibble := 0xf, nn := some 0x55 }, by decide, rfl, ?_⟩
    simp [encode, decodeFields_xnn, MatchRule.accepts]
  · simp [encode, decodeFields_xnn, Instr.opType, withOperands]

theorem storeRegisters (x : RegIndex) : Statement (.storeRegisters x) := by
  constructor
  · refine ⟨{ op := .storeRegisters, nibble := 0xf, nn := some 0x65 }, by decide, rfl, ?_⟩
    simp [encode, decodeFields_xnn, MatchRule.accepts]
  · simp [encode, decodeFields_xnn, Instr.opType, withOperands]

end Sys2Proof.Laws.RowMatch
end

