-- ==== Sys2Proof/Tests/Slice0.lean ====
section
/-! SUPPORT. Tests. Every expected value is worked out in the spec: the vectors V-... of
95_test_vectors.md and 96_test_vectors_memory_display_keys.md, or the rule named. Then, for every
obligation with hypotheses, concrete states and operands that meet all of them together. -/

-- One thread a file: with a thread for every theorem the file needs more memory than it is given.
set_option Elab.async false

namespace Sys2Proof.Tests

open Sys2Proof.Machine

/-! ## Well-formedness: an ill-formed term for each check (30_encoding.md R91) -/

/-- The fields of 0xD01F (V-ENC-1), written out. -/
def fieldsD01F : Fields where
  opcode := 0xD01F
  nibble := 0xD
  x      := 0x0
  y      := 0x1
  n      := 0xF
  nn     := 0x1F
  nnn    := 0x01F

theorem test_wellFormed_accepts_the_fields_of_an_opcode : fieldsD01F.wellFormed = true := by decide

theorem test_nnAgrees_refuses :
    let f := { fieldsD01F with y := 0x2 }
    f.nnAgrees = false ∧ f.nnnAgrees = true ∧ f.opcodeAgrees = true ∧ f.wellFormed = false := by decide

theorem test_nnnAgrees_refuses :
    let f := { fieldsD01F with x := 0x3 }
    f.nnAgrees = true ∧ f.nnnAgrees = false ∧ f.opcodeAgrees = true ∧ f.wellFormed = false := by decide

theorem test_opcodeAgrees_refuses :
    let f := { fieldsD01F with nibble := 0xC }
    f.nnAgrees = true ∧ f.nnnAgrees = true ∧ f.opcodeAgrees = false ∧ f.wellFormed = false := by decide

/-! ## Decoding: a word of every row, written out from 30_encoding.md R95 (vectors V-ENC) -/

theorem test_decodeFields_D01F : decodeFields 0xD01F = fieldsD01F := by decide

theorem test_decode_clearScreen : decodeWord 0x01E0 = some (.clearScreen 0x1) := by decide
theorem test_decode_ret : decodeWord 0x0FEE = some (.ret 0xF) := by decide
theorem test_decode_jump : decodeWord 0x1FFF = some (.jump 0xFFF) := by decide
theorem test_decode_call : decodeWord 0x2428 = some (.call 0x428) := by decide
theorem test_decode_skipIfVxNnEq : decodeWord 0x3A7F = some (.skipIfVxNnEq 0xA 0x7F) := by decide
theorem test_decode_skipIfVxNnNeq : decodeWord 0x4A7F = some (.skipIfVxNnNeq 0xA 0x7F) := by decide
theorem test_decode_skipIfVxVyEq : decodeWord 0x5AB0 = some (.skipIfVxVyEq 0xA 0xB) := by decide
theorem test_decode_setRegister : decodeWord 0x600C = some (.setRegister 0x0 0x0C) := by decide
theorem test_decode_add : decodeWord 0x7009 = some (.add 0x0 0x09) := by decide
theorem test_decode_setVx : decodeWord 0x8AB0 = some (.setVx 0xA 0xB) := by decide
theorem test_decode_or : decodeWord 0x8AB1 = some (.or 0xA 0xB) := by decide
theorem test_decode_and : decodeWord 0x8AB2 = some (.and 0xA 0xB) := by decide
theorem test_decode_xor : decodeWord 0x8AB3 = some (.xor 0xA 0xB) := by decide
theorem test_decode_addVy : decodeWord 0x8AB4 = some (.addVy 0xA 0xB) := by decide
theorem test_decode_subVy : decodeWord 0x8AB5 = some (.subVy 0xA 0xB) := by decide
theorem test_decode_shiftRight : decodeWord 0x8AB6 = some (.shiftRight 0xA 0xB) := by decide
theorem test_decode_subn : decodeWord 0x8AB7 = some (.subn 0xA 0xB) := by decide
theorem test_decode_shiftLeft : decodeWord 0x8ABE = some (.shiftLeft 0xA 0xB) := by decide
theorem test_decode_skipIfVxVyNeq : decodeWord 0x9AB0 = some (.skipIfVxVyNeq 0xA 0xB) := by decide
theorem test_decode_setIndex : decodeWord 0xA123 = some (.setIndex 0x123) := by decide
theorem test_decode_random : decodeWord 0xC1FF = some (.random 0x1 0xFF) := by decide
theorem test_decode_display : decodeWord 0xD01F = some (.display 0x0 0x1 0xF) := by decide
theorem test_decode_skipIfKeyEq : decodeWord 0xE19E = some (.skipIfKeyEq 0x1) := by decide
theorem test_decode_skipIfKeyNeq : decodeWord 0xE1A1 = some (.skipIfKeyNeq 0x1) := by decide
theorem test_decode_setVxFromDelay : decodeWord 0xF107 = some (.setVxFromDelay 0x1) := by decide
theorem test_decode_waitForKey : decodeWord 0xF10A = some (.waitForKey 0x1) := by decide
theorem test_decode_setDelayFromVx : decodeWord 0xF115 = some (.setDelayFromVx 0x1) := by decide
theorem test_decode_setSoundFromVx : decodeWord 0xF118 = some (.setSoundFromVx 0x1) := by decide
theorem test_decode_addVxToIndex : decodeWord 0xF11E = some (.addVxToIndex 0x1) := by decide
theorem test_decode_font : decodeWord 0xF129 = some (.font 0x1) := by decide
theorem test_decode_bcd : decodeWord 0xF133 = some (.bcd 0x1) := by decide
theorem test_decode_loadRegisters : decodeWord 0xF155 = some (.loadRegisters 0x1) := by decide
theorem test_decode_storeRegisters : decodeWord 0xF165 = some (.storeRegisters 0x1) := by decide

theorem test_decode_refuses_low :
    decodeWord 0x0000 = none ∧ decodeWord 0x00E1 = none ∧ decodeWord 0x00FE = none ∧
    decodeWord 0x0123 = none ∧ decodeWord 0x5AB1 = none ∧ decodeWord 0x5ABF = none := by decide

theorem test_decode_refuses_middle :
    decodeWord 0x8AB8 = none ∧ decodeWord 0x8ABD = none ∧ decodeWord 0x8ABF = none ∧
    decodeWord 0x9AB1 = none ∧ decodeWord 0xB123 = none := by decide

theorem test_decode_refuses_high :
    decodeWord 0xE19F = none ∧ decodeWord 0xE100 = none ∧ decodeWord 0xF01F = none ∧
    decodeWord 0xF175 = none ∧ decodeWord 0xF130 = none ∧ decodeWord 0xFFFF = none := by decide

/-- The first byte is the high one (S12). -/
theorem test_decode_is_big_endian :
    decode [0x60, 0x0C, 0x70] = .ok (.setRegister 0x0 0x0C, [0x70]) ∧
    decode [0x60] = .error .truncated ∧ decode [0xF0, 0x1F] = .error (.unassigned 0xF01F) := by decide

/-- The table numbers the opcode's own bits. -/
theorem test_decodeTableWord :
    decodeTableWord 16 0x00E0 = some (.clearScreen 0x0) ∧ decodeTableWord 16 0xB000 = none := by decide

/-! ## One step (vectors V-CTL, V-ALU, V-IDX, V-DSP, V-KEY, V-TMR, V-FLT) -/

/-- The state after reset with an opcode at 0x200, changed by `change`. -/
def ready (op : Word) (change : State → State) : State := change (State.reset.placeOpcode op)

/-- One cycle of that state, and what `read` says of the state after it. -/
def run {α : Type} (op : Word) (change : State → State) (read : State → α) : Option α :=
  after read (step (ready op change))

/-- The state with some registers set. -/
def regs (vs : List (RegIndex × Byte)) (s : State) : State := vs.foldl (fun s p => s.setReg p.1 p.2) s

/-- The state with its bytes from `a` on set. -/
def bytes (a : Nat) (bs : List Byte) (s : State) : State :=
  (bs.foldl (fun p b => (p.1.setByte p.2 b, p.2 + 1)) (s, a)).1

/-- The state with some stack slots set, slot 1 first, and that depth. -/
def calls (ts : List Word) (s : State) : State :=
  ts.foldl (fun s t => if h : s.sp.val < 16 then ((s.setPc t).push ⟨s.sp.val, h⟩).setPc 0x200 else s) s

/-- The state with some pixels on. -/
def lit (ps : List (Fin 32 × Fin 64)) (s : State) : State :=
  s.setFb (ps.foldl (fun fb p => fb.toggle p.1 p.2) s.fb)

/-- The lit pixels of a row. -/
def litInRow (s : State) (r : Fin 32) : List (Fin 64) := (List.finRange 64).filter (s.fb.pixel r ·)

/-- The latch as the vectors write it. -/
def latch (s : State) : Bool × Nat × Nat := (s.fault.valid, s.fault.code.toNat, s.fault.info.toNat)

/-- V-CTL-5: RETURN takes the saved address and keeps the slot. -/
theorem test_ret :
    run 0x00EE (calls [0x302])
      (fun s => (s.pc, s.sp, s.slot 0)) =
      some (0x302, 0, 0x302) := by decide

/-- V-TMR-12: RETURN with an empty stack faults, `pc` past the opcode, no tick. -/
theorem test_ret_empty :
    run 0x00EE (fun s => s.setDt 3)
      (fun s => (s.pc, latch s, s.dt)) =
      some (0x202, (true, 5, 0), 3) := by decide

/-- V-TMR-9: JUMP, and any instruction ticks. -/
theorem test_jump :
    run 0x1200 (fun s => (s.setDt 1).setSt 1)
      (fun s => (s.pc, s.dt, s.st)) =
      some (0x200, 0, 0) := by decide

/-- V-TMR-10: a timer at 0 stays at 0. -/
theorem test_jump_no_wrap :
    run 0x1200 (fun s => s.setSt 2)
      (fun s => (s.pc, s.dt, s.st)) =
      some (0x200, 0, 1) := by decide

/-- V-CTL-4 (S6): CALL saves the address after it. -/
theorem test_call :
    run 0x2428 (id)
      (fun s => (s.pc, s.sp, s.slot 0)) =
      some (0x428, 1, 0x202) := by decide

/-- 60_exceptions.md R253: the seventeenth CALL faults. -/
theorem test_call_full :
    run 0x2428 (calls (List.replicate 16 0x302))
      (fun s => (s.pc, s.sp, latch s)) =
      some (0x202, 16, (true, 4, 16)) := by decide

/-- 41_control_transfer.md R143: taken. -/
theorem test_skipIfVxNnEq :
    run 0x3105 (regs [(1, 5)])
      (fun s => s.pc) =
      some 0x204 := by decide

/-- 41_control_transfer.md R143: not taken. -/
theorem test_skipIfVxNnEq_not_taken :
    run 0x3105 (regs [(1, 6)])
      (fun s => s.pc) =
      some 0x202 := by decide

/-- 41_control_transfer.md R144: taken. -/
theorem test_skipIfVxNnNeq :
    run 0x4105 (regs [(1, 6)])
      (fun s => s.pc) =
      some 0x204 := by decide

/-- 41_control_transfer.md R144: not taken. -/
theorem test_skipIfVxNnNeq_not_taken :
    run 0x4105 (regs [(1, 5)])
      (fun s => s.pc) =
      some 0x202 := by decide

/-- 41_control_transfer.md R145: taken. -/
theorem test_skipIfVxVyEq :
    run 0x5120 (regs [(1, 5), (2, 5)])
      (fun s => s.pc) =
      some 0x204 := by decide

/-- 41_control_transfer.md R145: not taken. -/
theorem test_skipIfVxVyEq_not_taken :
    run 0x5120 (regs [(1, 5), (2, 6)])
      (fun s => s.pc) =
      some 0x202 := by decide

/-- 41_control_transfer.md R146: taken. -/
theorem test_skipIfVxVyNeq :
    run 0x9120 (regs [(1, 5), (2, 6)])
      (fun s => s.pc) =
      some 0x204 := by decide

/-- 41_control_transfer.md R146: not taken. -/
theorem test_skipIfVxVyNeq_not_taken :
    run 0x9120 (regs [(1, 5), (2, 5)])
      (fun s => s.pc) =
      some 0x202 := by decide

/-- S10, the first cycle. -/
theorem test_setRegister :
    run 0x600C (id)
      (fun s => (s.reg 0, s.pc)) =
      some (0x0C, 0x202) := by decide

/-- S3: ADD wraps and leaves `VF`. -/
theorem test_add :
    run 0x7002 (regs [(0, 0xFF), (0xF, 5)])
      (fun s => (s.reg 0, s.reg 0xF)) =
      some (0x01, 5) := by decide

/-- 42_register_alu.md R162 with `x = 0xF`: a plain sum. -/
theorem test_add_to_flag_register :
    run 0x7F02 (regs [(0xF, 0x05)])
      (fun s => s.reg 0xF) =
      some 0x07 := by decide

/-- V-ALU-44. -/
theorem test_setVx :
    run 0x8120 (regs [(2, 0x5A)])
      (fun s => (s.reg 1, s.reg 2)) =
      some (0x5A, 0x5A) := by decide

/-- V-ALU-45: `VF` untouched. -/
theorem test_or :
    run 0x8121 (regs [(1, 0xF0), (2, 0x0F), (0xF, 1)])
      (fun s => (s.reg 1, s.reg 2, s.reg 0xF)) =
      some (0xFF, 0x0F, 1) := by decide

/-- V-ALU-46: `VF` untouched. -/
theorem test_and :
    run 0x8122 (regs [(1, 0xF0), (2, 0x3C), (0xF, 1)])
      (fun s => (s.reg 1, s.reg 2, s.reg 0xF)) =
      some (0x30, 0x3C, 1) := by decide

/-- V-ALU-47: `VF` untouched. -/
theorem test_xor :
    run 0x8123 (regs [(1, 0xF0), (2, 0x3C), (0xF, 1)])
      (fun s => (s.reg 1, s.reg 2, s.reg 0xF)) =
      some (0xCC, 0x3C, 1) := by decide

/-- V-ALU-48. -/
theorem test_xor_with_itself :
    run 0x8113 (regs [(1, 0xF0)])
      (fun s => s.reg 1) =
      some 0x00 := by decide

/-- V-ALU-13: the old `VF` is the addend, and the sum 255 sets the flag. -/
theorem test_addVy_255 :
    run 0x81F4 (regs [(1, 0xFE), (0xF, 1)])
      (fun s => (s.reg 1, s.reg 0xF)) =
      some (0xFF, 1) := by decide

/-- V-ALU-8: the sum 254 does not. -/
theorem test_addVy_254 :
    run 0x8124 (regs [(1, 0xFD), (2, 0x01)])
      (fun s => (s.reg 1, s.reg 0xF)) =
      some (0xFE, 0) := by decide

/-- V-ALU-17: equal operands clear the flag. -/
theorem test_subVy_equal :
    run 0x8125 (regs [(1, 0x33), (2, 0x33), (0xF, 1)])
      (fun s => (s.reg 1, s.reg 2, s.reg 0xF)) =
      some (0x00, 0x33, 0) := by decide

/-- V-ALU-20: `x = 0xF` subtracts from the flag just written. -/
theorem test_subVy_flag_register :
    run 0x8F25 (regs [(0xF, 5), (2, 3)])
      (fun s => (s.reg 2, s.reg 0xF)) =
      some (3, 0xFE) := by decide

/-- V-ALU-32: the flag from `V1`, the value from `V2`. -/
theorem test_shiftRight :
    run 0x8126 (regs [(1, 2), (2, 9)])
      (fun s => (s.reg 1, s.reg 2, s.reg 0xF)) =
      some (4, 9, 0) := by decide

/-- V-ALU-34: `y = 0xF` shifts the flag just written. -/
theorem test_shiftRight_flag_register :
    run 0x81F6 (regs [(1, 3), (0xF, 0xFF)])
      (fun s => (s.reg 1, s.reg 0xF)) =
      some (0, 1) := by decide

/-- V-ALU-23. -/
theorem test_subn :
    run 0x8127 (regs [(1, 1), (2, 0xFF)])
      (fun s => (s.reg 1, s.reg 2, s.reg 0xF)) =
      some (0xFE, 0xFF, 1) := by decide

/-- V-ALU-27: `y = 0xF` subtracts from the flag just written. -/
theorem test_subn_flag_register :
    run 0x81F7 (regs [(1, 5), (0xF, 3)])
      (fun s => (s.reg 1, s.reg 0xF)) =
      some (0xFB, 0) := by decide

/-- V-ALU-38: bit 7 of `V2` is lost without a flag. -/
theorem test_shiftLeft :
    run 0x812E (regs [(1, 0x7F), (2, 0xFF)])
      (fun s => (s.reg 1, s.reg 2, s.reg 0xF)) =
      some (0xFE, 0xFF, 0) := by decide

/-- V-ALU-41: `x = 0xF` ends as the shifted value. -/
theorem test_shiftLeft_flag_register :
    run 0x8F2E (regs [(0xF, 0x80), (2, 0x81)])
      (fun s => (s.reg 2, s.reg 0xF)) =
      some (0x81, 0x02) := by decide

/-- V-ALU-50: the mask 0 gives 0 whatever is drawn. -/
theorem test_random_mask_0 :
    after (fun s => (s.reg 1, s.random.draws)) (exec (.random 0x1 0x00) (regs [(1, 0x11)] State.reset)) =
      some (0, 1) := by
  simp [after, exec, execRandom, regs, State.reset, RandomPort.next]

/-- 42_register_alu.md R172: a second draw is a fresh byte. -/
theorem test_random_draws_a_fresh_byte (s : State) :
    ((s.setReg 1 (s.rnd &&& 0xFF)).drawn).rnd = Config.randomByte s.random.source (s.random.draws + 1) := rfl

/-- V-IDX-2: the largest immediate. -/
theorem test_setIndex :
    run 0xAFFF (fun s => s.setIndex 0x123)
      (fun s => (s.index, s.pc)) =
      some (0xFFF, 0x202) := by decide

/-- V-IDX-4: past 12 bits, no fault, `VF` untouched. -/
theorem test_addVxToIndex :
    run 0xF11E (fun s => (s.setIndex 0xFFF).setReg 1 2)
      (fun s => (s.index, s.reg 0xF, latch s)) =
      some (0x1001, 0, (false, 0, 0)) := by decide

/-- V-IDX-7: the largest sum. -/
theorem test_addVxToIndex_overflow :
    run 0xF11E (fun s => (s.setIndex 0xFFFF).setReg 1 0xFF)
      (fun s => (s.index, s.pc, latch s)) =
      some (0xFFFF, 0x202, (true, 6, 0x100FE)) := by decide

/-- V-IDX-9 (S7). -/
theorem test_font :
    run 0xF029 (regs [(0, 1)])
      (fun s => s.index) =
      some 0x055 := by decide

/-- V-IDX-12: 0x10 is not masked. -/
theorem test_font_16 :
    run 0xF029 (fun s => (s.setIndex 0x300).setReg 0 0x10)
      (fun s => (s.index, latch s)) =
      some (0x300, (true, 7, 0x10)) := by decide

/-- V-IDX-14 (S8). -/
theorem test_bcd :
    run 0xF033 (fun s => (s.setIndex 0x300).setReg 0 0xFD)
      (fun s => (s.byteAt 0x300, s.byteAt 0x301, s.byteAt 0x302, s.index)) =
      some (2, 5, 3, 0x300) := by decide

/-- V-IDX-20: two bytes written, then the fault. -/
theorem test_bcd_at_the_end :
    run 0xF033 (fun s => (s.setIndex 0xFFE).setReg 0 0x7B)
      (fun s => (s.byteAt 0xFFE, s.byteAt 0xFFF, latch s)) =
      some (1, 2, (true, 2, 0x1000)) := by decide

/-- V-IDX-23: `V3` is not stored, `I` stays. -/
theorem test_loadRegisters :
    run 0xF255 (fun s => regs [(0, 0x11), (1, 0x22), (2, 0x33), (3, 0x44)] (s.setIndex 0x300))
      (fun s => (s.byteAt 0x300, s.byteAt 0x302, s.byteAt 0x303, s.index)) =
      some (0x11, 0x33, 0x00, 0x300) := by decide

/-- V-IDX-25. -/
theorem test_loadRegisters_at_the_end :
    run 0xF255 (fun s => regs [(0, 0x11), (1, 0x22), (2, 0x33)] (s.setIndex 0xFFE))
      (fun s => (s.byteAt 0xFFE, s.byteAt 0xFFF, latch s)) =
      some (0x11, 0x22, (true, 2, 0x1000)) := by decide

/-- V-IDX-27: `V3` is not loaded, `I` stays. -/
theorem test_storeRegisters :
    run 0xF265 (fun s => bytes 0x300 [2, 5, 3, 7] (regs [(3, 0x99)] (s.setIndex 0x300)))
      (fun s => (s.reg 0, s.reg 1, s.reg 2, s.reg 3, s.index)) =
      some (2, 5, 3, 0x99, 0x300) := by decide

/-- V-IDX-28: `V0` and `V1` loaded, `V2` not. -/
theorem test_storeRegisters_at_the_end :
    run 0xF265 (fun s => bytes 0xFFE [1, 2] (regs [(0, 0xAA), (1, 0xBB), (2, 0xCC)] (s.setIndex 0xFFE)))
      (fun s => (s.reg 0, s.reg 1, s.reg 2, latch s)) =
      some (1, 2, 0xCC, (true, 2, 0x1000)) := by decide

/-- V-DSP-12: `VF` untouched. -/
theorem test_clearScreen :
    run 0x00E0 (fun s => lit [(0, 0), (31, 63)] (s.setReg 0xF 1))
      (fun s => (litInRow s 0, litInRow s 31, s.reg 0xF)) =
      some ([], [], 1) := by decide

/-- V-DSP-3, the rows 30 and 2: wrapped at both edges, nothing clipped. -/
theorem test_display :
    run 0xD125 (fun s => regs [(1, 0x3E), (2, 0x1E)] (s.setIndex 0x055))
      (fun s => (litInRow s 30, litInRow s 2, litInRow s 5, s.reg 0xF)) =
      some ([0], [0, 1, 63], [], 0) := by decide

/-- V-DSP-5: one pixel of eight collides. -/
theorem test_display_collides :
    run 0xD121 (fun s => lit [(0, 7)] (bytes 0x300 [0xFF] (s.setIndex 0x300)))
      (fun s => (litInRow s 0, s.reg 0xF)) =
      some ([0, 1, 2, 3, 4, 5, 6], 1) := by decide

/-- V-KEY-1: taken. -/
theorem test_skipIfKeyEq :
    run 0xE09E (fun s => (s.setReg 0 7).setKey (some 7))
      (fun s => s.pc) =
      some 0x204 := by decide

/-- V-KEY-4: no key is not key 0. -/
theorem test_skipIfKeyEq_no_key :
    run 0xE09E (id)
      (fun s => s.pc) =
      some 0x202 := by decide

/-- V-KEY-6: not taken. -/
theorem test_skipIfKeyNeq :
    run 0xE0A1 (fun s => (s.setReg 0 7).setKey (some 7))
      (fun s => s.pc) =
      some 0x202 := by decide

/-- V-KEY-8: no key is always taken. -/
theorem test_skipIfKeyNeq_no_key :
    run 0xE0A1 (regs [(0, 7)])
      (fun s => s.pc) =
      some 0x204 := by decide

/-- V-KEY-11: all 8 bits of the key are stored. -/
theorem test_waitForKey :
    run 0xF30A (fun s => (s.setReg 3 0x33).setKey (some 0x41))
      (fun s => (s.reg 3, s.pc)) =
      some (0x41, 0x202) := by decide

/-- V-KEY-9: nothing moves, the timers included. -/
theorem test_waitForKey_waits :
    run 0xF00A (fun s => ((s.setReg 0 0x33).setDt 5).setSt 5)
      (fun s => (s.reg 0, s.dt, s.st, s.pc)) =
      some (0x33, 5, 5, 0x200) := by decide

/-- V-TMR-1: written and ticked in one cycle. -/
theorem test_setDelayFromVx :
    run 0xF315 (regs [(3, 5)])
      (fun s => s.dt) =
      some 4 := by decide

/-- V-TMR-2: writing 0 stops the timer. -/
theorem test_setDelayFromVx_zero :
    run 0xF315 (fun s => s.setDt 9)
      (fun s => s.dt) =
      some 0 := by decide

/-- V-TMR-6: both timers tick. -/
theorem test_setSoundFromVx :
    run 0xF318 (fun s => (s.setReg 3 0x10).setDt 3)
      (fun s => (s.dt, s.st)) =
      some (2, 0x0F) := by decide

/-- V-TMR-7: reads before the tick. -/
theorem test_setVxFromDelay :
    run 0xF407 (fun s => s.setDt 4)
      (fun s => (s.reg 4, s.dt)) =
      some (4, 3) := by decide

/-! ### Faults of the cycle itself -/

/-- V-TMR-11: the opcode is recorded, `pc` is past it, no tick. -/
theorem test_unassigned :
    run 0xF01F (fun s => s.setDt 3)
      (fun s => (s.pc, latch s, s.dt)) =
      some (0x202, (true, 1, 0xF01F), 3) := by decide

/-- V-FLT-12: a halted block ignores the request. -/
theorem test_halted :
    run 0x600C (fun s => s.latch .stackUnderflow)
      (fun s => (s.pc, s.reg 0, latch s)) =
      some (0x200, 0, (true, 5, 0)) := by decide

/-- V-FLT-8: the second fetch byte does not exist. -/
theorem test_fetch_at_the_end :
    run 0x600C (fun s => s.setPc 0xFFF)
      (fun s => (s.pc, latch s)) =
      some (0xFFF, (true, 2, 0x1000)) := by decide

/-- V-FLT-10: the largest `pc`. -/
theorem test_fetch_past_the_end :
    run 0x600C (fun s => s.setPc 0x1002)
      (fun s => (s.pc, latch s)) =
      some (0x1002, (true, 2, 0x1002)) := by decide

/-- V-FLT-11: the last two cells hold an instruction. -/
theorem test_last_instruction :
    run 0x600C (fun s => bytes 0xFFE [0x60, 0x55] (s.setPc 0xFFE))
      (fun s => (s.reg 0, s.pc, latch s)) =
      some (0x55, 0x1000, (false, 0, 0)) := by decide

/-- The host's check: an opcode placed where the first step after reset fetches. -/
theorem test_withFetchWord :
    after (fun s => (s.reg 0, s.pc)) (step (State.reset.withFetchWord 16 0x600C)) = some (0x0C, 0x202) := by
  decide

/-- V-FLT-2: with nothing loaded, the first fetch meets the word 0x0000. -/
theorem test_step_from_reset :
    after (fun s => (s.pc, latch s)) (step State.reset) = some (0x202, (true, 1, 0)) := by decide

/-- S10: the ROM is loaded from 0x200 on. -/
theorem test_launch :
    after (fun s => (s.byteAt 0x200, s.byteAt 0x203, s.pc)) (State.reset.launch [0x60, 0x0C, 0x70, 0x09]) =
      some (0x60, 0x09, 0x200) := by decide

/-- V-RST-2 and 20_memory.md R74: a launch of a halted block with a changed memory begins with reset. -/
theorem test_launch_resets :
    after (fun s => (s.byteAt 0x200, s.byteAt 0x300, latch s))
      (hostMove (.launch [0x60]) ((State.reset.setByte 0x300 7).latch .stackUnderflow)) =
      some (0x60, 0x00, (false, 0, 0)) := by decide

/-- V-RST-2: reset clears the latch. -/
theorem test_reset_clears_the_latch :
    after latch (hostMove .reset (State.reset.latch .stackUnderflow)) = some (false, 0, 0) := by decide

/-! ## Witnesses: for every obligation with hypotheses, states and operands that meet them all

Each theorem is named after its obligation. Where a statement has several clauses, there is a witness
for each of them, at the ends of its range. -/

/-- The state one cycle later (itself where there is none). -/
def next (s : State) : State := (after id (step s)).getD s

/-- An answer that is a next state at all is that next state. -/
theorem eq_next {r : Result} {s : State} (h : after (fun _ => true) r = some true) :
    r = .next ((after id r).getD s) := by
  cases r <;> simp_all [after]

/-- A state in which a key is held and everything else is as after reset. -/
def keyHeld (k : Byte) : State := State.reset.setKey (some k)

theorem test_meets_EncodeOfDecodeIsIdentity : decodeWord 0xD01F = some (.display 0x0 0x1 0xF) := by decide

/-- Both sides of a row of the table: met and not met. -/
theorem test_meets_ClassificationFollowsTheRuleTable :
    (0x0AE0 : Word) &&& 0xF0FF = 0x00E0 ∧ (decodeWord 0x0AE0).map Instr.opType = some .clearScreen ∧
    (0x0AE1 : Word) &&& 0xF0FF ≠ 0x00E0 ∧ (decodeWord 0x0AE1).map Instr.opType = none := by decide

theorem test_meets_StepRunsTheDecodedInstruction :
    Running (ready 0x600C id) ∧ Fetches (ready 0x600C id) (.setRegister 0x0 0x0C) := by decide

/-- The other two ways a cycle ends: in a fault of the effect, and waiting. -/
theorem test_meets_StepRunsTheDecodedInstruction_no_tick :
    Running (ready 0x00EE id) ∧ Fetches (ready 0x00EE id) (.ret 0x0) ∧
    (next (ready 0x00EE id)).fault.valid = true ∧
    Running (ready 0xF00A id) ∧ Fetches (ready 0xF00A id) (.waitForKey 0x0) ∧
    (ready 0xF00A id).key = none := by decide

theorem test_meets_FaultedBlockStaysHalted :
    (State.reset.latch .stackUnderflow).fault.valid = true ∧
    ∀ m ∈ [HostMove.cycle, .setKey (some 1), .cycle], m = .cycle ∨ ∃ k, m = .setKey k := by
  refine ⟨by decide, fun m hm => ?_⟩
  simp only [List.mem_cons, List.not_mem_nil, or_false] at hm
  rcases hm with rfl | rfl | rfl
  · exact .inl rfl
  · exact .inr ⟨_, rfl⟩
  · exact .inl rfl

/-- `pc` at 0xFFF, at 0x1000 and at 0x1002. -/
theorem test_meets_FetchOutOfBoundsIsLatched :
    let meets := fun pc : Word =>
      Running (State.reset.setPc pc) ∧ 4096 ≤ (State.reset.setPc pc).pc.toNat + 1
    meets 0xFFF ∧ meets 0x1000 ∧ meets 0x1002 :=
  ⟨⟨rfl, by simp⟩, ⟨rfl, by simp⟩, ⟨rfl, by simp⟩⟩

/-- Both clauses, the last two cells included. -/
theorem test_meets_UnassignedOpcodeIsLatched :
    let s := bytes 0xFFE [0xF0, 0x1F] (State.reset.setPc 0xFFE)
    Running s ∧ s.pc.toNat + 1 < 4096 ∧ decodeWord (opcodeAtPc s) = none ∧
      step s = .next (next s) ∧ (next s).fault.valid = true ∧ (next s).fault.code = 1 :=
  ⟨by decide, by decide, by decide, eq_next (by decide), by decide, by decide⟩

theorem test_meets_StepKeepsTheInvariant :
    State.reset.Inv ∧ step State.reset = .next (next State.reset) := ⟨by decide, eq_next (by decide)⟩

/-- At the ends of what the invariant allows: `pc` 0x1002, a saved 0x1000, a latch in its range. -/
theorem test_meets_HostMovesKeepTheInvariant :
    State.Inv ((calls [0x1000] State.reset).setPc 0x1002) ∧
    State.Inv (State.reset.latch (.indexOverflow 0x100FE)) ∧
    State.Inv (State.reset.latch (outOfBounds 0x1000E)) := ⟨by decide, by decide, by decide⟩

theorem test_meets_ReachableStatesMeetTheInvariant : Reachable (State.reset.setKey (some 0xF)) :=
  .key _ (.launch (s := State.reset) (rom := []) (by decide) rfl)

/-- A state after a run, a reset and another launch is one of them too. -/
theorem test_meets_ReachableStatesMeetTheInvariant_after_a_reset :
    Reachable (State.reset.drawn.latch .stackUnderflow).restart :=
  .launch (s := State.reset.drawn.latch .stackUnderflow) (rom := []) (by decide) rfl

/-- A ticking cycle, a write to each timer, a fault and a wait. -/
theorem test_meets_TimersTickOncePerCompletedCycle :
    let meets := fun (op : Word) (i : Instr) =>
      Running (ready op id) ∧ Fetches (ready op id) i ∧ step (ready op id) = .next (next (ready op id))
    meets 0x600C (.setRegister 0x0 0x0C) ∧ meets 0xF315 (.setDelayFromVx 0x3) ∧
    meets 0xF318 (.setSoundFromVx 0x3) ∧ meets 0x00EE (.ret 0x0) ∧ meets 0xF00A (.waitForKey 0x0) :=
  ⟨⟨by decide, by decide, eq_next (by decide)⟩, ⟨by decide, by decide, eq_next (by decide)⟩,
   ⟨by decide, by decide, eq_next (by decide)⟩, ⟨by decide, by decide, eq_next (by decide)⟩,
   ⟨by decide, by decide, eq_next (by decide)⟩⟩

theorem test_meets_WaitingCycleIsTheIdentity :
    Running (ready 0xF00A id) ∧ Fetches (ready 0xF00A id) (.waitForKey 0x0) ∧
      (ready 0xF00A id).key = none := by decide

/-- The first three rows of the table: a fetch fault, an unassigned opcode, a fault of an effect. -/
theorem test_meets_PcMovesAsTheTableSays_faults :
    (let s := State.reset.setPc 0xFFF
     Running s ∧ step s = .next (next s) ∧ 4096 ≤ s.pc.toNat + 1) ∧
    (let s := ready 0xF01F id
     Running s ∧ step s = .next (next s) ∧ s.pc.toNat + 1 < 4096 ∧ decodeWord (opcodeAtPc s) = none) ∧
    (let s := ready 0x00EE id
     Running s ∧ step s = .next (next s) ∧ Fetches s (.ret 0x0) ∧ (next s).fault.valid = true) :=
  ⟨⟨by decide, eq_next (by decide), by decide⟩, ⟨by decide, eq_next (by decide), by decide, by decide⟩,
   ⟨by decide, eq_next (by decide), by decide, by decide⟩⟩

/-- A cycle that completes an instruction. -/
abbrev Completes (s : State) (i : Instr) : Prop :=
  Running s ∧ Fetches s i ∧ after (fun t => t.fault.valid) (step s) = some false

/-- The other rows: an instruction of each kind, completed; RETURN with the slot it takes. -/
theorem test_meets_PcMovesAsTheTableSays_kinds :
    Completes (ready 0x1FFF id) (.jump 0xFFF) ∧ Completes (ready 0x2428 id) (.call 0x428) ∧
    Completes (ready 0x3105 id) (.skipIfVxNnEq 0x1 0x05) ∧
    Completes (ready 0x4105 id) (.skipIfVxNnNeq 0x1 0x05) ∧
    Completes (ready 0x5120 id) (.skipIfVxVyEq 0x1 0x2) ∧
    Completes (ready 0x9120 id) (.skipIfVxVyNeq 0x1 0x2) ∧
    Completes (ready 0xE09E id) (.skipIfKeyEq 0x0) ∧ Completes (ready 0xE0A1 id) (.skipIfKeyNeq 0x0) ∧
    Completes (ready 0xF00A id) (.waitForKey 0x0) ∧ Completes (ready 0xA123 id) (.setIndex 0x123) ∧
    Completes (ready 0x00EE (calls [0x302])) (.ret 0x0) ∧
    (ready 0x00EE (calls [0x302])).sp = (0 : Fin 16).succ := by decide

theorem test_meets_InstructionsWriteOnlyWhatTheMatrixNames :
    Memory.wf State.reset.mem ∧ exec (.setIndex 0x300) State.reset = .next (State.reset.setIndex 0x300) :=
  ⟨by decide, rfl⟩

/-- A change of `I`, of the stack, of the framebuffer and of a register. -/
theorem test_meets_StateChangesOnlyThroughItsWriters :
    (let s := ready 0xA123 id
     step s = .next (next s) ∧ (next s).index ≠ s.index) ∧
    (let s := ready 0x2428 id
     step s = .next (next s) ∧ (next s).sp ≠ s.sp ∧ (next s).slot 0 ≠ s.slot 0) ∧
    (let s := ready 0x00E0 (lit [(0, 0)])
     step s = .next (next s) ∧ (next s).fb ≠ s.fb) ∧
    (let s := ready 0x8AB4 (regs [(0xA, 0xFF)])
     step s = .next (next s) ∧ (next s).reg 0xF ≠ s.reg 0xF) :=
  ⟨⟨eq_next (by decide), by decide⟩, ⟨eq_next (by decide), by decide, by decide⟩,
   ⟨eq_next (by decide), fun e => absurd (congrArg (·.pixel 0 0) e) (by decide)⟩,
   ⟨eq_next (by decide), by decide⟩⟩

/-- BCD at its first and last byte, LOAD_REGISTERS at its last. -/
theorem test_meets_MemoryChangesOnlyThroughItsWriters :
    (let s := ready 0xF033 fun s => (s.setIndex 0xFFD).setReg 0 0xFD
     Memory.wf s.mem ∧ step s = .next (next s) ∧ (next s).byteAt 0xFFD ≠ s.byteAt 0xFFD ∧
       (next s).byteAt 0xFFF ≠ s.byteAt 0xFFF) ∧
    (let s := ready 0xF155 fun s => (s.setIndex 0x300).setReg 1 7
     Memory.wf s.mem ∧ step s = .next (next s) ∧ (next s).byteAt 0x301 ≠ s.byteAt 0x301) :=
  ⟨⟨by decide, eq_next (by decide), by decide, by decide⟩, ⟨by decide, eq_next (by decide), by decide⟩⟩

theorem test_meets_SoundTimerIsNeverRead : step (ready 0x600C id) = .next (next (ready 0x600C id)) :=
  eq_next (by decide)

theorem test_meets_OnlyKeyInstructionsReadTheKey :
    (Instr.add 0x0 0x01).opType ∉ [OpType.skipIfKeyEq, .skipIfKeyNeq, .waitForKey] ∧
    exec (.waitForKey 0x0) (keyHeld 7) = .next ((keyHeld 7).setReg 0 7) := ⟨by decide, rfl⟩

theorem test_meets_OnlyDisplayReadsTheFramebuffer :
    (Instr.clearScreen 0x0).opType ≠ .display ∧
    exec (.clearScreen 0x0) State.reset = .next State.reset := ⟨by decide, rfl⟩

theorem test_meets_OnlyRandomReadsTheRandomPort : (Instr.add 0x0 0x01).opType ≠ .random := by decide

/-- The lowest and the highest slot, and the empty stack. -/
theorem test_meets_ReturnTakesTheTopSlot :
    (calls [0x302] State.reset).sp = (0 : Fin 16).succ ∧
    (calls (List.replicate 16 0x302) State.reset).sp = (15 : Fin 16).succ ∧ State.reset.sp = 0 := by decide

/-- The target just below 0xFFF and 0xFFF itself. -/
theorem test_meets_JumpSetsThePc : (0xFFE : Addr12) ≠ 0xFFF ∧ (0xFFF : Addr12) = 0xFFF := by decide

/-- The first and the last free slot, and the full stack. -/
theorem test_meets_CallSavesThePcAndJumps :
    State.reset.sp = (0 : Fin 16).castSucc ∧
    (calls (List.replicate 15 0x302) State.reset).sp = (15 : Fin 16).castSucc ∧
    (calls (List.replicate 16 0x302) State.reset).sp = Fin.last 16 := by decide

/-- The last free slot, and a state in which something else has changed since the CALL. -/
theorem test_meets_ReturnUndoesCall :
    let s := calls (List.replicate 15 0x302) State.reset
    let t := (after id (exec (.call 0x428) s)).getD s
    let u := (t.setReg 0 5).setPc 0x500
    s.sp ≠ Fin.last 16 ∧ exec (.call 0x428) s = .next t ∧ u.sp = t.sp ∧ u.stack = t.stack :=
  ⟨by decide, eq_next (by decide), rfl, rfl⟩

theorem test_meets_AddVySetsTheFlagFrom255 : (0x1 : RegIndex) ≠ 0xF ∧ ¬ (0xF : RegIndex) ≠ 0xF := by decide

/-- The register cases of the tables of SUB_VY and SUBN, one by one. -/
theorem test_meets_SubVyByItsTable_and_SubnByItsTable :
    ((0x1 : RegIndex) ≠ 0xF ∧ (0x2 : RegIndex) ≠ 0xF) ∧
    ((0x1 : RegIndex) = 0x1 ∧ (0x1 : RegIndex) ≠ 0xF) ∧
    ((0xF : RegIndex) = 0xF ∧ (0xE : RegIndex) ≠ 0xF) := by decide

/-- The register cases of the tables of the shifts. -/
theorem test_meets_ShiftRightByItsTable_and_ShiftLeftByItsTable :
    ((0xE : RegIndex) ≠ 0xF ∧ (0x0 : RegIndex) ≠ 0xF) ∧ (0xF : RegIndex) = 0xF := by decide

/-- The sums 0xFFFF and 0x10000. -/
theorem test_meets_AddVxToIndexNeverWraps :
    (let s := (State.reset.setIndex 0xFF01).setReg 1 0xFE
     s.index.toNat + (s.reg 1).toNat ≤ 0xFFFF) ∧
    (let s := (State.reset.setIndex 0xFFFF).setReg 1 0x01
     0xFFFF < s.index.toNat + (s.reg 1).toNat) := by decide

/-- The values 0xF and 0x10. -/
theorem test_meets_FontFindsTheGlyph :
    ((State.reset.setReg 0 0x0F).reg 0).toNat ≤ 0xF ∧ 0xF < ((State.reset.setReg 0 0x10).reg 0).toNat := by
  decide

/-- `I` at 0xFFD, the last that fits, at 0xFFE, the first that faults, and at 0x1000. -/
theorem test_meets_BcdWritesThreeDigits :
    Memory.wf State.reset.mem ∧
    effectiveAddr (State.reset.setIndex 0xFFD) 2 < 4096 ∧
    (4096 ≤ effectiveAddr (State.reset.setIndex 0xFFE) 2 ∧
      effectiveAddr (State.reset.setIndex 0xFFE) 1 < 4096) ∧
    4096 ≤ effectiveAddr (State.reset.setIndex 0x1000) 0 := by decide

/-- Blocks of one and of sixteen registers, just fitting and just not. -/
theorem test_meets_LoadRegistersWritesMemory :
    Memory.wf State.reset.mem ∧
    effectiveAddr (State.reset.setIndex 0xFFF) (0x0 : RegIndex).toNat < 4096 ∧
    4096 ≤ effectiveAddr (State.reset.setIndex 0x1000) (0x0 : RegIndex).toNat ∧
    effectiveAddr (State.reset.setIndex 0xFF0) (0xF : RegIndex).toNat < 4096 ∧
    4096 ≤ effectiveAddr (State.reset.setIndex 0xFF1) (0xF : RegIndex).toNat ∧
    (0xE : RegIndex) ≤ 0xF ∧ effectiveAddr (State.reset.setIndex 0xFF1) (0xE : RegIndex).toNat < 4096 := by
  decide

/-- The same blocks, read: a register that is loaded and one that is not. -/
theorem test_meets_StoreRegistersReadsMemory :
    effectiveAddr (State.reset.setIndex 0xFF0) (0xF : RegIndex).toNat < 4096 ∧
    4096 ≤ effectiveAddr (State.reset.setIndex 0xFF1) (0xF : RegIndex).toNat ∧
    ((0xE : RegIndex) ≤ 0xF ∧ effectiveAddr (State.reset.setIndex 0xFF1) (0xE : RegIndex).toNat < 4096) := by
  decide

/-- Sixteen registers in the last sixteen bytes, and a state with other registers in between. -/
theorem test_meets_SavedRegistersComeBack :
    let s := (State.reset.setIndex 0xFF0).setReg 3 0x33
    let t := (after id (exec (.loadRegisters 0xF) s)).getD s
    let u := t.setReg 3 0x44
    Memory.wf s.mem ∧ effectiveAddr s (0xF : RegIndex).toNat < 4096 ∧
      exec (.loadRegisters 0xF) s = .next t ∧ u.mem = t.mem ∧ u.index = s.index ∧
      (0x3 : RegIndex) ≤ 0xF :=
  ⟨by decide, by decide, eq_next (by decide), rfl, by decide, by decide⟩

theorem test_meets_BcdDigitsReadBack :
    Memory.wf State.reset.mem ∧ effectiveAddr (State.reset.setIndex 0xFFD) 2 < 4096 := by decide

/-- Addresses 4095, 4096 and the largest; ranges that just fit, just do not, and are empty. -/
theorem test_meets_AccessesAreBoundsChecked :
    Memory.wf State.reset.mem ∧ (4095 ≤ 0x1000E ∧ 4095 < 4096) ∧ (0x1000E ≤ 0x1000E ∧ 4096 ≤ 0x1000E) ∧
    (4095 + 1 ≤ 4096) ∧ (2 ≠ 0 ∧ 4096 < 4095 + 2) ∧
    ([1, 2] : List Byte) ≠ [] ∧ 4096 < 4095 + ([1, 2] : List Byte).length := by decide

/-- No rows; fifteen rows up to the last byte; a covered pixel that is on, and none that is. -/
theorem test_meets_DisplayTogglesCoveredPixels :
    (0x0 : BitVec 4) = 0 ∧
    (State.reset.setIndex 0xFF1).index.toNat + (0xF : BitVec 4).toNat ≤ 4096 ∧
    (spriteCovers [0xFF] 0 0 0 7 = true ∧ (lit [(0, 7)] State.reset).fb.pixel 0 7 = true) ∧
    (∀ r c, spriteCovers [0xFF] 0 0 r c = true → State.reset.fb.pixel r c = false) := by
  refine ⟨by decide, by decide, by decide, fun r c _ => ?_⟩
  simp [State.reset, Block.reset, Framebuffer.clear, Framebuffer.pixel]

/-- One row too many, and the first address of all out of bounds. -/
theorem test_meets_DisplayFaultDrawsNothing :
    (0x2 : BitVec 4) ≠ 0 ∧ 4096 < (State.reset.setIndex 0xFFF).index.toNat + (0x2 : BitVec 4).toNat ∧
    (0x1 : BitVec 4) ≠ 0 ∧ 4096 < (State.reset.setIndex 0x1000).index.toNat + (0x1 : BitVec 4).toNat := by
  decide

/-- The second draw after the first, with coordinates in two registers that are not `VF`. -/
theorem test_meets_DrawingTwiceRestoresTheScreen :
    let s := State.reset.setIndex 0x055
    let t := (after id (exec (.display 0x1 0x2 0x5) s)).getD s
    s.index.toNat + (0x5 : BitVec 4).toNat ≤ 4096 ∧ exec (.display 0x1 0x2 0x5) s = .next t ∧
      t.index = s.index ∧ t.reg 1 = s.reg 1 ∧ t.reg 2 = s.reg 2 :=
  ⟨by decide, eq_next (by decide), by decide, by decide, by decide⟩

/-- The key that is in the register, another key, and no key. -/
theorem test_meets_KeySkipsAreOpposite :
    (keyHeld 0).key = some 0 ∧ (keyHeld 0).reg 0 = 0 ∧ (keyHeld 7).key = some 7 ∧ (keyHeld 7).reg 0 ≠ 7 ∧
    State.reset.key = none := by decide

theorem test_meets_WaitForKeyStoresTheKey :
    (keyHeld 0x41).key = some 0x41 ∧ State.reset.key = none := by decide

/-- The cells next to the font and the last one. -/
theorem test_meets_ResetLeavesTheseValues :
    (0x04F < 0x050) ∧ (0x09F < 0x0A0) ∧ (0x09F < 0xFFF) := by decide

/-- The longest ROM that fits and the shortest that does not. -/
theorem test_meets_RomLoadPlacesTheBytes :
    (List.replicate 3584 (0x60 : Byte)).length ≤ 3584 ∧ 3584 < (List.replicate 3585 (0x60 : Byte)).length ∧
    (0 < (List.replicate 3585 (0x60 : Byte)).length ∧ 0x200 + 0 < 4096) := by
  simp only [List.length_replicate]
  omega

theorem test_meets_IdleLoopOnlyCountsDown :
    Running (ready 0x1200 fun s => s.setDt 5) ∧ AtIdleLoop 0x200 (ready 0x1200 fun s => s.setDt 5) := by decide

end Sys2Proof.Tests
end

section
/-! PROOFS. The layer under the statements about the state (10_state.md): what `exec` of the branching
instructions answers, the frame of every instruction and of a cycle, and the pieces that other
instructions neither read nor write. -/

namespace Sys2Proof.Machine

variable {s t u : State}

/-! ### A register written twice -/

/-- A second write of a register replaces the first. -/
@[simp] theorem State.setReg_setReg (s : State) (i : RegIndex) (a b : Byte) :
    (s.setReg i a).setReg i b = s.setReg i b := by
  simp [State.setReg]

/-! ### The two stack instructions by the depth of the stack -/

theorem execRet_empty (x : RegIndex) (h : s.sp = 0) : execRet x s = raise .stackUnderflow s := by
  rw [execRet, h]

theorem execRet_succ (x : RegIndex) {k : Fin 16} (h : s.sp = k.succ) :
    execRet x s = .next (s.pop k) := by
  rw [execRet, h]
  rfl

theorem execCall_free (nnn : Addr12) (h : s.sp.val < Config.stackDepth) :
    execCall nnn s = .next ((s.push ⟨s.sp.val, h⟩).setPc (zextAddr nnn)) :=
  dif_pos h

theorem execCall_full (nnn : Addr12) (h : ¬ s.sp.val < Config.stackDepth) :
    execCall nnn s = raise .stackOverflow s :=
  dif_neg h

/-! ### Frames of the shared operations -/

/-- Frames in a row: what the first or the second may change. -/
theorem SameBut.append {ps qs : List Part} (h : SameBut ps s t) (k : SameBut qs t u) :
    SameBut (ps ++ qs) s u :=
  (h.mono fun _ hp => List.mem_append_left _ hp).trans (k.mono fun _ hp => List.mem_append_right _ hp)

/-- A frame holds whatever one memory both states are given. -/
theorem SameBut.withMem {ps : List Part} (h : SameBut ps s t) (m : List Host.Cell) :
    SameBut ps { s with mem := m } { t with mem := m } :=
  ⟨h.regs, h.pc, h.index, h.slots, h.sp, h.dt, h.st, fun _ _ => rfl, h.fb, h.fault, h.key, h.random⟩

theorem setDt_frame (s : State) (b : Byte) : SameBut [.dt] s (s.setDt b) := by
  constructor <;> intros <;> simp_all

theorem setSt_frame (s : State) (b : Byte) : SameBut [.st] s (s.setSt b) := by
  constructor <;> intros <;> simp_all

theorem setFb_frame (s : State) (fb : Framebuffer) : SameBut [.fb] s (s.setFb fb) := by
  constructor <;> intros <;> simp_all

theorem drawn_frame (s : State) : SameBut [.random] s s.drawn := by
  constructor <;> intros <;> simp_all

theorem pop_frame (s : State) (k : Fin 16) : SameBut [.sp, .pc] s (s.pop k) := by
  constructor <;> intros <;> simp_all

theorem push_frame (s : State) (k : Fin 16) : SameBut [.sp, .slot k] s (s.push k) := by
  constructor <;> intros <;> simp_all

theorem skipIf_frame {c : Bool} (h : skipIf c s = .next t) : SameBut [.pc] s t := by
  rw [skipIf_eq] at h
  injection h with h
  exact h ▸ setPc_frame s _

theorem raise_frame {f : Fault} (h : raise f s = .next t) : SameBut [.fault] s t := by
  injection h with h
  exact h ▸ latch_frame s f

/-- A range write changes the bytes of its range and, where it leaves memory, the latch. -/
theorem writeRange_frame {a : Nat} {bs : List Byte} (wf : Memory.wf s.mem)
    (h : writeRange s a bs = .next t) : SameBut (.fault :: byteParts a bs.length) s t := by
  obtain ⟨w, written, e⟩ := writeRange_spec (bs := bs) (a := a) wf
  rw [h] at e
  have rest : SameBut [.fault] w t := by
    split at e
    · injection e with e
      exact e ▸ SameBut.refl t _
    · exact raise_frame e.symm
  exact (written.frame.append rest).mono fun _ hp => (List.perm_append_singleton _ _).subset hp

/-- A range write changes nothing but memory and the latch, whatever the memory. -/
theorem writeRange_frame_but_memory {a : Nat} {bs : List Byte} (h : writeRange s a bs = .next t) :
    SameBut [.fault] s { t with mem := s.mem } := by
  obtain ⟨m, f, rfl⟩ := writeRange_others h
  constructor
  case fault => exact fun h => absurd (List.mem_singleton_self _) h
  all_goals intros; rfl

/-- A block load changes its registers and, where it leaves memory, the latch. -/
theorem loadRegsFrom_frame {base : Nat} {x : RegIndex}
    (h : loadRegsFrom base (regsUpTo x) s = .next t) : SameBut (.fault :: regParts x) s t := by
  obtain ⟨w, loaded, e⟩ := loadRegsFrom_spec (base := base) (s := s) (regsUpTo_sorted x)
  rw [h] at e
  have rest : SameBut [.fault] w t := by
    rcases e with ⟨-, e⟩ | ⟨i, -, -, -, e⟩
    · injection e with e
      exact e ▸ SameBut.refl t _
    · exact raise_frame e.symm
  exact (loaded.frame.append rest).mono fun _ hp => (List.perm_append_singleton _ _).subset hp

/-! ### The frame of every instruction (10_state.md R34) -/

theorem execRet_frame {x : RegIndex} (h : execRet x s = .next t) :
    SameBut [.pc, .sp, .fault] s t := by
  rcases Fin.eq_zero_or_eq_succ s.sp with h0 | ⟨k, hk⟩
  · rw [execRet_empty x h0] at h
    exact (raise_frame h).mono (by simp)
  · rw [execRet_succ x hk] at h
    injection h with h
    exact h ▸ (pop_frame s k).mono (by simp)

theorem execCall_frame {nnn : Addr12} (h : execCall nnn s = .next t) :
    SameBut ([.pc, .sp, .fault] ++ nextSlot s) s t := by
  by_cases free : s.sp.val < Config.stackDepth
  · rw [execCall_free nnn free] at h
    injection h with h
    have slot : nextSlot s = [.slot ⟨s.sp.val, free⟩] := dif_pos free
    rw [slot, ← h]
    exact ((push_frame s _).append (setPc_frame _ _)).mono (by simp)
  · rw [execCall_full nnn free] at h
    exact (raise_frame h).mono (by simp)

theorem execDisplay_frame {x y : RegIndex} {n : BitVec 4} (h : execDisplay x y n s = .next t) :
    SameBut [.fb, .reg flagIndex, .fault] s t := by
  unfold execDisplay at h
  split at h
  · exact (raise_frame h).mono (by simp)
  · injection h with h
    exact h ▸ ((setFb_frame s _).append (setReg_frame _ flagIndex _)).mono (by simp)

theorem execAddVxToIndex_frame {x : RegIndex} (h : execAddVxToIndex x s = .next t) :
    SameBut [.index, .fault] s t := by
  unfold execAddVxToIndex at h
  dsimp only at h
  split at h
  · exact (raise_frame h).mono (by simp)
  · injection h with h
    exact h ▸ (setIndex_frame s _).mono (by simp)

theorem execFont_frame {x : RegIndex} (h : execFont x s = .next t) :
    SameBut [.index, .fault] s t := by
  unfold execFont at h
  split at h
  · exact (raise_frame h).mono (by simp)
  · injection h with h
    exact h ▸ (setIndex_frame s _).mono (by simp)

theorem execWaitForKey_frame {x : RegIndex} (h : execWaitForKey x s = .next t) :
    SameBut [.reg x, .pc] s t := by
  unfold execWaitForKey at h
  split at h <;> injection h with h
  · exact h ▸ (setPc_frame s _).mono (by simp)
  · exact h ▸ (setReg_frame s x _).mono (by simp)

/-- The frame of every instruction that does not write memory: its column "Writes". -/
theorem exec_frame_of_memory_kept {i : Instr} (kept : i.opType ∉ [.bcd, .loadRegisters])
    (h : exec i s = .next t) : SameBut (mayWrite i s) s t := by
  cases i
  case bcd | loadRegisters => exact absurd kept (by simp [Instr.opType])
  case ret x => exact execRet_frame (x := x) h
  case call => exact execCall_frame h
  case display => exact execDisplay_frame h
  case addVxToIndex => exact execAddVxToIndex_frame h
  case font => exact execFont_frame h
  case waitForKey => exact execWaitForKey_frame h
  case storeRegisters => exact loadRegsFrom_frame h
  case skipIfVxNnEq | skipIfVxNnNeq | skipIfVxVyEq | skipIfVxVyNeq | skipIfKeyEq | skipIfKeyNeq =>
    exact skipIf_frame h
  all_goals
    injection h with h
    subst h
  case clearScreen => exact setFb_frame s _
  case jump => exact setPc_frame s _
  case setIndex => exact setIndex_frame s _
  case setDelayFromVx => exact setDt_frame s _
  case setSoundFromVx => exact setSt_frame s _
  case random => exact (setReg_frame s _ _).append (drawn_frame _)
  case setRegister | add | setVx | or | and | xor | setVxFromDelay => exact setReg_frame s _ _
  case addVy => exact (setReg_frame s _ _).append (setReg_frame _ flagIndex _)
  case subVy | shiftRight | subn | shiftLeft =>
    exact ((setReg_frame s flagIndex _).append (setReg_frame _ _ _)).mono (by simp [mayWrite])

/-- The frame of every instruction, memory byte by byte. -/
theorem exec_frame {i : Instr} (wf : Memory.wf s.mem) (h : exec i s = .next t) :
    SameBut (mayWrite i s) s t := by
  cases i
  case bcd x => exact writeRange_frame wf h
  case loadRegisters x =>
    simpa [mayWrite, bytesAtIndex, effectiveAddr] using writeRange_frame wf h
  all_goals exact exec_frame_of_memory_kept (by simp [Instr.opType]) h

/-- The frame of every instruction but for memory, whatever the memory. -/
theorem exec_frame_but_memory {i : Instr} (h : exec i s = .next t) :
    SameBut (mayWrite i s) s { t with mem := s.mem } := by
  cases i
  case bcd | loadRegisters => exact (writeRange_frame_but_memory h).mono (by simp [mayWrite])
  all_goals exact (exec_frame_of_memory_kept (by simp [Instr.opType]) h).withMem s.mem

/-- Settles O19, by the frame of every instruction. -/
theorem instructionsWriteOnlyWhatTheMatrixNames :
    Obligations.InstructionsWriteOnlyWhatTheMatrixNames :=
  fun _ _ _ wf h => exec_frame wf h

/-! ### The frame of a cycle -/

/-- Fetch's advance of `pc` moves nothing an instruction may write. -/
theorem mayWrite_advancePc (i : Instr) (s : State) : mayWrite i s.advancePc = mayWrite i s := by
  cases i <;> rfl

/-- Beyond `pc`, the timers and the latch (and memory, byte by byte in `exec_frame`), a cycle changes
nothing that the instruction fetched may not write. -/
theorem step_frame_but_memory (h : step s = .next t) :
    ∃ ws, SameBut (ws ++ [.pc, .dt, .st, .fault]) s { t with mem := s.mem } ∧
      ∀ p ∈ ws, ∃ i, Fetches s i ∧ p ∈ mayWrite i s := by
  have none_run {t : State} (frame : SameBut [.pc, .fault] s t) :
      SameBut ([] ++ [.pc, .dt, .st, .fault]) s { t with mem := s.mem } :=
    (frame.mono (by simp)).withMem s.mem
  have pc : SameBut [.pc] s s.advancePc := setPc_frame s _
  rcases step_cases s with ⟨-, e⟩ | ⟨-, -, e⟩ | ⟨-, -, -, e⟩ | ⟨i, -, hi, e⟩ <;> rw [e] at h
  · injection h with h
    exact ⟨[], none_run (h ▸ SameBut.refl s _), by simp⟩
  · exact ⟨[], none_run ((raise_frame h).mono (by simp)), by simp⟩
  · exact ⟨[], none_run (pc.append (raise_frame h)), by simp⟩
  · obtain ⟨u, hu, ht⟩ := finish_eq_next.mp h
    have ending : SameBut [.dt, .st] u t := by
      rw [ht]
      split
      · exact SameBut.refl u _
      · exact tick_frame u
    have effect := mayWrite_advancePc i s ▸ exec_frame_but_memory hu
    refine ⟨mayWrite i s, ?_, fun p hp => ⟨i, hi, hp⟩⟩
    refine ((pc.append effect).append (ending.withMem s.mem)).mono fun p hp => ?_
    simp only [List.mem_append, List.mem_cons, List.not_mem_nil, or_false] at hp ⊢
    tauto

/-! ### Which rows of the matrix name a piece of state -/

theorem key_not_mem_mayWrite (i : Instr) : Part.key ∉ mayWrite i s := by
  cases i <;> simp [mayWrite, nextSlot, bytesAtIndex, regParts]

theorem opType_of_index_mem_mayWrite {i : Instr} :
    Part.index ∈ mayWrite i s → i.opType ∈ [.setIndex, .addVxToIndex, .font] := by
  cases i <;> simp [mayWrite, nextSlot, bytesAtIndex, regParts, Instr.opType]

theorem opType_of_sp_mem_mayWrite {i : Instr} :
    Part.sp ∈ mayWrite i s → i.opType ∈ [.call, .ret] := by
  cases i <;> simp [mayWrite, bytesAtIndex, regParts, Instr.opType]

theorem opType_of_slot_mem_mayWrite {i : Instr} {k : Fin 16} :
    Part.slot k ∈ mayWrite i s → i.opType ∈ [.call, .ret] := by
  cases i <;> simp [mayWrite, bytesAtIndex, regParts, Instr.opType]

theorem opType_of_fb_mem_mayWrite {i : Instr} :
    Part.fb ∈ mayWrite i s → i.opType ∈ [.clearScreen, .display] := by
  cases i <;> simp [mayWrite, nextSlot, bytesAtIndex, regParts, Instr.opType]

/-- A piece that a cycle has changed, and that is no matter of the cycle itself, is one the instruction
fetched may write. -/
theorem writer_of_changed {p : Part} {ws : List Part}
    (writers : ∀ p ∈ ws, ∃ i, Fetches s i ∧ p ∈ mayWrite i s) (hp : p ∉ [.pc, .dt, .st, .fault])
    {same : Prop} (frame : p ∉ ws ++ [.pc, .dt, .st, .fault] → same) (changed : ¬ same) :
    ∃ i, Fetches s i ∧ p ∈ mayWrite i s := by
  refine writers p (by_contra fun hw => changed (frame fun h => ?_))
  exact (List.mem_append.mp h).elim hw hp

/-- Settles O20, by the frame of a cycle and the rows of the matrix that name a piece. -/
theorem stateChangesOnlyThroughItsWriters : Obligations.StateChangesOnlyThroughItsWriters := by
  intro s t h
  obtain ⟨ws, frame, writers⟩ := step_frame_but_memory h
  refine ⟨?_, ?_, ?_, ?_, ?_⟩
  · by_contra changed
    obtain ⟨i, -, hi⟩ := writer_of_changed writers (by decide) frame.key changed
    exact key_not_mem_mayWrite i hi
  · intro changed
    obtain ⟨i, hf, hi⟩ := writer_of_changed writers (by decide) frame.index changed
    exact ⟨i, hf, opType_of_index_mem_mayWrite hi⟩
  · rintro (changed | ⟨k, changed⟩)
    · obtain ⟨i, hf, hi⟩ := writer_of_changed writers (by decide) frame.sp changed
      exact ⟨i, hf, opType_of_sp_mem_mayWrite hi⟩
    · obtain ⟨i, hf, hi⟩ := writer_of_changed writers (by simp) (frame.slots k) changed
      exact ⟨i, hf, opType_of_slot_mem_mayWrite hi⟩
  · intro changed
    obtain ⟨i, hf, hi⟩ := writer_of_changed writers (by decide) frame.fb changed
    exact ⟨i, hf, opType_of_fb_mem_mayWrite hi⟩
  · exact fun r changed => writer_of_changed writers (by simp) (frame.regs r) changed

/-! ### Changing a piece of state that an instruction does not use

`ST`, `FB`, `KEY` and the port `RND` are each used by one row or a few (10_state.md R34). A change of
one of them commutes with every instruction of the other rows. -/

/-- Which of these four pieces an operation reads or writes in `exec`. -/
def portsOf : OpType → List Part
  | .clearScreen | .display => [.fb]
  | .random => [.random]
  | .skipIfKeyEq | .skipIfKeyNeq | .waitForKey => [.key]
  | .setSoundFromVx => [.st]
  | _ => []

theorem st_mem_portsOf {o : OpType} : Part.st ∈ portsOf o ↔ o = .setSoundFromVx := by
  cases o <;> decide

theorem fb_mem_portsOf {o : OpType} : Part.fb ∈ portsOf o ↔ o ∈ [.clearScreen, .display] := by
  cases o <;> decide

theorem key_mem_portsOf {o : OpType} :
    Part.key ∈ portsOf o ↔ o ∈ [.skipIfKeyEq, .skipIfKeyNeq, .waitForKey] := by
  cases o <;> decide

theorem random_mem_portsOf {o : OpType} : Part.random ∈ portsOf o ↔ o = .random := by
  cases o <;> decide

/-- `f` changes at most the piece `q`, one of `ST`, `FB`, `KEY` and `RND`, whatever the rest of the state
holds: reads of other pieces do not see it, and writes of other pieces commute with it. -/
structure ChangesOnly (q : Part) (f : State → State) : Prop where
  reg       : ∀ s i, (f s).reg i = s.reg i
  pc        : ∀ s, (f s).pc = s.pc
  index     : ∀ s, (f s).index = s.index
  sp        : ∀ s, (f s).sp = s.sp
  dt        : ∀ s, (f s).dt = s.dt
  byteAt    : ∀ s a, (f s).byteAt a = s.byteAt a
  fb        : q ≠ .fb → ∀ s, (f s).fb = s.fb
  key       : q ≠ .key → ∀ s, (f s).key = s.key
  rnd       : q ≠ .random → ∀ s, (f s).rnd = s.rnd
  setReg    : ∀ s i b, (f s).setReg i b = f (s.setReg i b)
  setPc     : ∀ s a, (f s).setPc a = f (s.setPc a)
  setIndex  : ∀ s a, (f s).setIndex a = f (s.setIndex a)
  push      : ∀ s k, (f s).push k = f (s.push k)
  pop       : ∀ s k, (f s).pop k = f (s.pop k)
  setDt     : ∀ s b, (f s).setDt b = f (s.setDt b)
  setByte   : ∀ s a b, (f s).setByte a b = f (s.setByte a b)
  latch     : ∀ s r, (f s).latch r = f (s.latch r)
  setSt     : q ≠ .st → ∀ s b, (f s).setSt b = f (s.setSt b)
  setFb     : q ≠ .fb → ∀ s fb, (f s).setFb fb = f (s.setFb fb)
  drawn     : q ≠ .random → ∀ s, (f s).drawn = f s.drawn

theorem changesOnly_setSt (b : Byte) : ChangesOnly .st (·.setSt b) := by
  constructor
  case setSt => exact fun h => absurd rfl h
  all_goals intros; rfl

theorem changesOnly_setFb (fb : Framebuffer) : ChangesOnly .fb (·.setFb fb) := by
  constructor
  case fb | setFb => exact fun h => absurd rfl h
  all_goals intros; rfl

theorem changesOnly_setKey (k : Option Byte) : ChangesOnly .key (·.setKey k) := by
  constructor
  case key => exact fun h => absurd rfl h
  all_goals intros; rfl

theorem changesOnly_setRandom (p : RandomPort) : ChangesOnly .random (·.setRandom p) := by
  constructor
  case rnd | drawn => exact fun h => absurd rfl h
  all_goals intros; rfl

section
variable {q : Part} {f : State → State} (hf : ChangesOnly q f)
include hf

theorem ChangesOnly.raise (r : Fault) : raise r (f s) = mapNext f (raise r s) :=
  congrArg _ (hf.latch s r)

theorem ChangesOnly.skipIf (c : Bool) : skipIf c (f s) = mapNext f (skipIf c s) := by
  rw [skipIf_eq, skipIf_eq, hf.pc, hf.setPc]
  rfl

theorem ChangesOnly.memRead (a : Nat) : memRead (f s) a = memRead s a := by
  rw [Machine.memRead, Machine.memRead, hf.byteAt]

theorem ChangesOnly.readRange : ∀ n a : Nat, readRange (f s) a n = readRange s a n
  | 0, _ => rfl
  | n + 1, a => by rw [Machine.readRange, Machine.readRange, hf.memRead, ChangesOnly.readRange n]

theorem ChangesOnly.writeRange : ∀ (bs : List Byte) (a : Nat) (s : State),
    writeRange (f s) a bs = mapNext f (writeRange s a bs)
  | [], _, _ => rfl
  | b :: bs, a, s => by
    by_cases ha : a < Config.memSize
    · simp only [Machine.writeRange, memWrite_ok ha, hf.setByte, ChangesOnly.writeRange bs]
    · simp only [Machine.writeRange, memWrite_error (Nat.not_lt.mp ha), hf.raise]

theorem ChangesOnly.loadRegsFrom (base : Nat) : ∀ (is : List RegIndex) (s : State),
    loadRegsFrom base is (f s) = mapNext f (loadRegsFrom base is s)
  | [], _ => rfl
  | i :: is, s => by
    by_cases ha : base + i.toNat < Config.memSize
    · simp only [Machine.loadRegsFrom, memRead_ok ha, hf.byteAt, hf.setReg,
        ChangesOnly.loadRegsFrom base is]
    · simp only [Machine.loadRegsFrom, memRead_error (Nat.not_lt.mp ha), hf.raise]

theorem ChangesOnly.execRet (x : RegIndex) : execRet x (f s) = mapNext f (execRet x s) := by
  rcases Fin.eq_zero_or_eq_succ s.sp with h | ⟨k, h⟩
  · rw [execRet_empty x h, execRet_empty x ((hf.sp s).trans h), hf.raise]
  · rw [execRet_succ x h, execRet_succ x ((hf.sp s).trans h), hf.pop]
    rfl

theorem ChangesOnly.execCall (nnn : Addr12) : execCall nnn (f s) = mapNext f (execCall nnn s) := by
  by_cases h : s.sp.val < Config.stackDepth
  · rw [execCall_free nnn h, execCall_free nnn (by rwa [hf.sp])]
    simp only [hf.sp, hf.push, hf.setPc]
    rfl
  · rw [execCall_full nnn h, execCall_full nnn (by rwa [hf.sp]), hf.raise]

theorem ChangesOnly.execDisplay (h : q ≠ .fb) (x y : RegIndex) (n : BitVec 4) :
    execDisplay x y n (f s) = mapNext f (execDisplay x y n s) := by
  unfold Machine.execDisplay
  rw [hf.readRange, effectiveAddr, effectiveAddr, hf.index]
  cases Machine.readRange s (s.index.toNat + 0) n.toNat with
  | error r => exact hf.raise r
  | ok sprite =>
    simp only [hf.fb h, hf.reg, hf.setFb h, State.setFlag, hf.setReg]
    rfl

theorem ChangesOnly.execAddVxToIndex (x : RegIndex) :
    execAddVxToIndex x (f s) = mapNext f (execAddVxToIndex x s) := by
  unfold Machine.execAddVxToIndex
  simp only [hf.index, hf.reg, hf.setIndex, hf.raise]
  split <;> rfl

theorem ChangesOnly.execFont (x : RegIndex) : execFont x (f s) = mapNext f (execFont x s) := by
  unfold Machine.execFont
  simp only [hf.reg, hf.setIndex, hf.raise]
  split <;> rfl

theorem ChangesOnly.execWaitForKey (h : q ≠ .key) (x : RegIndex) :
    execWaitForKey x (f s) = mapNext f (execWaitForKey x s) := by
  unfold Machine.execWaitForKey
  simp only [hf.key h, hf.pc, hf.setPc, hf.setReg]
  cases s.key <;> rfl

/-- A change of a piece that an instruction does not use commutes with its effect. -/
theorem ChangesOnly.exec {i : Instr} (unused : q ∉ portsOf i.opType) (s : State) :
    exec i (f s) = mapNext f (exec i s) := by
  cases i
  case ret x => exact hf.execRet x
  case call nnn => exact hf.execCall nnn
  case display x y n => exact hf.execDisplay (by simpa [portsOf, Instr.opType] using unused) x y n
  case addVxToIndex x => exact hf.execAddVxToIndex x
  case font x => exact hf.execFont x
  case waitForKey x => exact hf.execWaitForKey (by simpa [portsOf, Instr.opType] using unused) x
  case bcd x =>
    simp only [Machine.exec, execBcd, effectiveAddr, hf.index, hf.reg, hf.writeRange]
  case loadRegisters x =>
    have regs : (f s).reg = s.reg := funext (hf.reg s)
    simp only [Machine.exec, execLoadRegisters, effectiveAddr, hf.index, regs, hf.writeRange]
  case storeRegisters x =>
    simp only [Machine.exec, execStoreRegisters, effectiveAddr, hf.index, hf.loadRegsFrom]
  case skipIfVxNnEq | skipIfVxNnNeq | skipIfVxVyEq | skipIfVxVyNeq =>
    simp only [Machine.exec, execSkipIfVxNnEq, execSkipIfVxNnNeq, execSkipIfVxVyEq,
      execSkipIfVxVyNeq, hf.reg, hf.skipIf]
  case skipIfKeyEq | skipIfKeyNeq =>
    have key := hf.key (by simpa [portsOf, Instr.opType] using unused) s
    simp only [Machine.exec, execSkipIfKeyEq, execSkipIfKeyNeq, keyIs, key, hf.reg, hf.skipIf]
  case clearScreen x =>
    have setFb := hf.setFb (by simpa [portsOf, Instr.opType] using unused)
    simp only [Machine.exec, execClearScreen, setFb, mapNext]
  case setSoundFromVx x =>
    have setSt := hf.setSt (by simpa [portsOf, Instr.opType] using unused)
    simp only [Machine.exec, execSetSoundFromVx, hf.reg, setSt, mapNext]
  case random x nn =>
    have other : q ≠ .random := by simpa [portsOf, Instr.opType] using unused
    simp only [Machine.exec, execRandom, hf.rnd other, hf.setReg, hf.drawn other, mapNext]
  case jump | setIndex | setDelayFromVx | setVxFromDelay =>
    simp only [Machine.exec, execJump, execSetIndex, execSetDelayFromVx, execSetVxFromDelay,
      hf.reg, hf.dt, hf.setPc, hf.setIndex, hf.setDt, hf.setReg, mapNext]
  case setRegister | add | setVx | or | and | xor =>
    simp only [Machine.exec, execSetRegister, execAdd, execSetVx, execOr, execAnd, execXor,
      hf.reg, hf.setReg, mapNext]
  case addVy | subVy | shiftRight | subn | shiftLeft =>
    simp only [Machine.exec, execAddVy, execSubVy, execShiftRight, execSubn, execShiftLeft,
      State.setFlag, hf.reg, hf.setReg, mapNext]

end

/-! ### Who reads which piece -/

/-- No instruction writes the key port, the key instructions included. -/
theorem exec_keeps_key {i : Instr} (h : exec i s = .next t) : t.key = s.key :=
  (exec_frame_but_memory h).key (key_not_mem_mayWrite i)

/-- Settles O23: the key port is used by three rows and written by none. -/
theorem onlyKeyInstructionsReadTheKey : Obligations.OnlyKeyInstructionsReadTheKey :=
  ⟨fun _ s k other => (changesOnly_setKey k).exec (mt key_mem_portsOf.mp other) s,
    fun _ _ _ h => exec_keeps_key h⟩

/-- Settles O24: CLEAR_SCREEN overwrites the framebuffer without reading it, and every other instruction
but DISPLAY does not use it. -/
theorem onlyDisplayReadsTheFramebuffer : Obligations.OnlyDisplayReadsTheFramebuffer := by
  intro i s t fb notDisplay h
  by_cases clears : i.opType = .clearScreen
  · cases i <;> cases clears
    exact ⟨t, h, rfl, SameBut.refl t _⟩
  · have unused : .fb ∉ portsOf i.opType := by simp [fb_mem_portsOf, clears, notDisplay]
    exact ⟨t.setFb fb, by rw [(changesOnly_setFb fb).exec unused, h]; rfl, rfl, setFb_frame t fb⟩

/-- Settles O25: RANDOM is the one row that uses the port, and the byte it takes reaches `V[x]` alone. -/
theorem onlyRandomReadsTheRandomPort : Obligations.OnlyRandomReadsTheRandomPort := by
  refine ⟨fun i s p other => (changesOnly_setRandom p).exec (mt random_mem_portsOf.mp other) s, ?_⟩
  intro x nn s p
  refine ⟨_, _, rfl, rfl, ?_, rfl, rfl⟩
  change ((s.setRandom p).setReg x _).toBlock = ((s.setReg x _).setReg x _).toBlock
  rw [State.setReg_setReg]
  rfl

/-! ### The sound timer -/

/-- An instruction leaves a changed `ST` changed, or writes it without reading it. -/
theorem exec_setSt (i : Instr) (s : State) (b : Byte) :
    ∃ c, exec i (s.setSt b) = mapNext (·.setSt c) (exec i s) := by
  by_cases writes : i.opType = .setSoundFromVx
  · cases i <;> cases writes
    exact ⟨s.reg _, rfl⟩
  · exact ⟨b, (changesOnly_setSt b).exec (mt st_mem_portsOf.mp writes) s⟩

/-- The end of a cycle counts a changed `ST` down by itself. -/
theorem endCycle_setSt (waitTicks waiting : Bool) (t : State) (b : Byte) :
    ∃ c, endCycle waitTicks waiting (t.setSt b) = (endCycle waitTicks waiting t).setSt c := by
  by_cases noTick : (t.fault.valid || (waiting && !waitTicks)) = true
  · exact ⟨b, by rw [endCycle, endCycle, if_pos noTick]; exact if_pos noTick⟩
  · exact ⟨tickTimer b, by rw [endCycle, endCycle, if_neg noTick]; exact if_neg noTick⟩

theorem finish_setSt (waiting : Bool) (r : Result) (b : Byte) :
    ∃ c, finish waiting (mapNext (·.setSt b) r) = mapNext (·.setSt c) (finish waiting r) := by
  cases r with
  | next t =>
    obtain ⟨c, hc⟩ := endCycle_setSt Config.waitTicksTimers waiting t b
    exact ⟨c, congrArg _ hc⟩
  | fault _ => exact ⟨b, rfl⟩
  | refused _ => exact ⟨b, rfl⟩

/-- A cycle of a block with another `ST` differs in `ST` alone. -/
theorem step_setSt (s : State) (b : Byte) :
    ∃ c, step (s.setSt b) = mapNext (·.setSt c) (step s) := by
  rcases step_cases s with ⟨hf, e⟩ | ⟨hr, hp, e⟩ | ⟨hr, hp, hd, e⟩ | ⟨i, hr, hi, e⟩ <;> rw [e]
  · exact ⟨b, step_halted (s := s.setSt b) hf⟩
  · exact ⟨b, step_fetch_fault (s := s.setSt b) hr hp⟩
  · exact ⟨b, step_unassigned (s := s.setSt b) hr hp hd⟩
  · obtain ⟨c, hc⟩ := exec_setSt i s.advancePc b
    obtain ⟨d, hd⟩ := finish_setSt (waits i s) (exec i s.advancePc) c
    exact ⟨d, hd ▸ hc ▸ step_fetches (s := s.setSt b) hr hi⟩

/-- Settles O22, by the cycle of a block with another `ST`. -/
theorem soundTimerIsNeverRead : Obligations.SoundTimerIsNeverRead := by
  intro s t b h
  obtain ⟨c, hc⟩ := step_setSt s b
  exact ⟨t.setSt c, by rw [hc, h]; rfl, rfl, setSt_frame t c⟩

/-! ### Reset -/

/-- Settles O13: memory lists nothing, `pc` is 0x200, the slots are zero and the latch is clear. -/
theorem resetMeetsTheInvariant : Obligations.ResetMeetsTheInvariant :=
  ⟨Memory.wf_reset, by decide, fun k => by simp, by decide⟩

/-- A cell outside the font holds `MEM_FILL` after reset (log entry 2). -/
theorem resetByte_outside_font {a : Nat} (h : a < 0x050 ∨ 0x09F < a) : resetByte a = 0 := by
  unfold resetByte
  split
  · have beyond : fontTable.length ≤ a - Config.fontBase := by
      have : fontTable.length = 80 := rfl
      have : Config.fontBase = 0x050 := rfl
      omega
    rw [List.getD_eq_default _ _ beyond]
    rfl
  · rfl

/-- Settles O57, field by field of `Block.reset`; the framebuffer and the cells outside the font by
their own lemmas. -/
theorem resetLeavesTheseValues : Obligations.ResetLeavesTheseValues :=
  ⟨rfl, rfl, rfl, rfl, State.reset_reg, State.reset_slot, rfl, rfl, Framebuffer.pixel_clear,
    rfl, rfl, rfl, fun _ h => resetByte_outside_font h,
    fun u => ⟨u.restart, rfl, rfl, rfl⟩⟩

end Sys2Proof.Machine
end

section
/-! PROOFS. Memory (20_memory.md): which bytes a cycle can change, and the bounds check of every
access. -/

namespace Sys2Proof.Machine

variable {s t : State}

/-! ### Addresses beyond memory -/

/-- The look-up of an address that no cell stands at finds nothing. -/
theorem Memory.lookup_of_unlisted {a : Nat} : ∀ {m : List Host.Cell}, (∀ p ∈ m, p.1 ≠ a) →
    Memory.lookup m a = none
  | [], _ => rfl
  | (k, c) :: rest, h => by
    have hk : k ≠ a := h (k, c) List.mem_cons_self
    have ih := Memory.lookup_of_unlisted fun p hp => h p (List.mem_cons_of_mem _ hp)
    simp [Memory.lookup, hk, ih]

/-- A canonical cell list lists no address beyond memory. -/
theorem Memory.read_beyond {m : List Host.Cell} (wf : Memory.wf m) {a : Nat}
    (beyond : Config.memSize ≤ a) : Memory.read m a = resetByte a := by
  have unlisted : Memory.lookup m a = none :=
    Memory.lookup_of_unlisted fun p hp => by have := (wf.2 p hp).1; omega
  rw [Memory.read, unlisted, Option.getD_none]

/-- Two memories in canonical form differ below 4096 only. -/
theorem lt_memSize_of_byteAt_ne {a : Nat} (wf : Memory.wf s.mem) (wf' : Memory.wf t.mem)
    (changed : t.byteAt a ≠ s.byteAt a) : a < Config.memSize := by
  by_contra out
  have beyond : Config.memSize ≤ a := Nat.not_lt.mp out
  exact changed ((Memory.read_beyond wf' beyond).trans (Memory.read_beyond wf beyond).symm)

/-! ### The writers of memory (95_test_vectors.md Q16) -/

/-- The bytes of memory that the matrix names: three for BCD, `x + 1` for LOAD_REGISTERS, from `I` on. -/
theorem byte_mem_mayWrite {i : Instr} {a : Nat} : Part.byte a ∈ mayWrite i s ↔
    ∃ x, (i = .bcd x ∧ s.index.toNat ≤ a ∧ a ≤ s.index.toNat + 2) ∨
      (i = .loadRegisters x ∧ s.index.toNat ≤ a ∧ a ≤ s.index.toNat + x.toNat) := by
  have range (n : Nat) :
      Part.byte a ∈ bytesAtIndex s (n + 1) ↔ s.index.toNat ≤ a ∧ a ≤ s.index.toNat + n :=
    mem_byteParts.trans (and_congr_right' Nat.lt_succ_iff)
  cases i
  case bcd | loadRegisters => simp [mayWrite, range]
  all_goals simp [mayWrite, nextSlot, regParts]

/-- A byte that an instruction has changed is one that its row of the matrix names, below 4096. -/
theorem exec_byteAt_changed {i : Instr} {a : Nat} (wf : Memory.wf s.mem) (h : exec i s = .next t)
    (changed : t.byteAt a ≠ s.byteAt a) : a < Config.memSize ∧ Part.byte a ∈ mayWrite i s := by
  have named : Part.byte a ∈ mayWrite i s := by_contra fun hn => changed ((exec_frame wf h).bytes a hn)
  have wf' : Memory.wf t.mem := by
    obtain ⟨x, ⟨rfl, -⟩ | ⟨rfl, -⟩⟩ := byte_mem_mayWrite.mp named
    · exact writeRange_wf wf h
    · exact writeRange_wf wf h
  exact ⟨lt_memSize_of_byteAt_ne wf wf' changed, named⟩

/-- A byte that a cycle has changed is one, below 4096, that the instruction fetched may write. -/
theorem step_byteAt_changed {a : Nat} (wf : Memory.wf s.mem) (h : step s = .next t)
    (changed : t.byteAt a ≠ s.byteAt a) :
    a < Config.memSize ∧ ∃ i, Fetches s i ∧ Part.byte a ∈ mayWrite i s := by
  rcases step_cases s with ⟨-, e⟩ | ⟨-, -, e⟩ | ⟨-, -, -, e⟩ | ⟨i, -, fetched, e⟩ <;> rw [e] at h
  · injection h with h
    exact absurd (h ▸ rfl) changed
  · exact absurd ((raise_frame h).bytes a (by simp)) changed
  · exact absurd ((raise_frame h).bytes a (by simp)) changed
  · obtain ⟨u, hu, ht⟩ := finish_eq_next.mp h
    have ending : t.byteAt a = u.byteAt a := by
      rw [ht]
      split <;> rfl
    obtain ⟨inside, named⟩ := exec_byteAt_changed (s := s.advancePc) wf hu (ending ▸ changed)
    exact ⟨inside, i, fetched, mayWrite_advancePc i s ▸ named⟩

/-- Settles O21: a changed byte is one that the instruction fetched may write, and the matrix names
bytes in two rows. -/
theorem memoryChangesOnlyThroughItsWriters : Obligations.MemoryChangesOnlyThroughItsWriters := by
  intro s t a wf h changed
  obtain ⟨inside, i, fetched, named⟩ := step_byteAt_changed wf h changed
  obtain ⟨x, ⟨rfl, range⟩ | ⟨rfl, range⟩⟩ := byte_mem_mayWrite.mp named
  · exact ⟨inside, x, .inl ⟨fetched, range⟩⟩
  · exact ⟨inside, x, .inr ⟨fetched, range⟩⟩

/-! ### The bounds check (20_memory.md R62, R63, R69) -/

/-- An access inside memory goes through, and a write changes its byte alone. -/
theorem access_inside (wf : Memory.wf s.mem) {a : Nat} (b : Byte) (inside : a < Config.memSize) :
    memRead s a = .ok (s.byteAt a) ∧
      ∃ t, memWrite s a b = .ok t ∧ t.byteAt a = b ∧ SameBut [.byte a] s t := by
  refine ⟨memRead_ok inside, s.setByte a b, memWrite_ok inside, ?_, setByte_frame wf a b⟩
  rw [State.setByte_byteAt wf, if_pos rfl]

/-- A range inside memory, an empty one at any address included, reads its bytes in order. -/
theorem readRange_inside {a n : Nat} (fits : n = 0 ∨ a + n ≤ Config.memSize) :
    ∃ bs, readRange s a n = .ok bs ∧ bs.length = n ∧
      ∀ j (hj : j < bs.length), bs[j] = s.byteAt (a + j) := by
  rcases fits with rfl | fits
  · exact ⟨[], rfl, rfl, fun _ hj => absurd hj (Nat.not_lt_zero _)⟩
  · exact ⟨_, readRange_ok fits, by simp, by simp⟩

/-- A range write, in bounds or not: its bytes inside memory are written; one that leaves memory
latches its first address out of bounds; nothing else has changed. -/
theorem writeRange_bounds (wf : Memory.wf s.mem) (a : Nat) (bs : List Byte) :
    ∃ t, writeRange s a bs = .next t ∧
      (∀ j (hj : j < bs.length), a + j < Config.memSize → t.byteAt (a + j) = bs[j]) ∧
      (bs = [] ∨ a + bs.length ≤ Config.memSize → SameBut (byteParts a bs.length) s t) ∧
      (bs ≠ [] → Config.memSize < a + bs.length → t.fault = latched 2 (max a Config.memSize) ∧
        SameBut (.fault :: byteParts a bs.length) s t) := by
  obtain ⟨w, range, e⟩ := writeRange_spec (bs := bs) (a := a) wf
  by_cases fits : bs = [] ∨ a + bs.length ≤ Config.memSize
  · rw [if_pos fits] at e
    refine ⟨w, e, range.written, fun _ => range.frame, fun nonempty out => ?_⟩
    exact absurd fits (not_or.mpr ⟨nonempty, Nat.not_le.mpr out⟩)
  · rw [if_neg fits] at e
    exact ⟨_, e, range.written, fun h => absurd h fits,
      fun _ _ => ⟨rfl, writeRange_frame wf e⟩⟩

/-- Settles O49: single accesses, ranges read, and ranges written, each inside memory and beyond. -/
theorem accessesAreBoundsChecked : Obligations.AccessesAreBoundsChecked := by
  intro s a b wf ha
  refine ⟨access_inside wf b, fun beyond => ?_, fun _ => readRange_inside, fun n hn out => ?_,
    writeRange_bounds wf a⟩
  · exact ⟨outOfBounds a, memRead_error beyond, memWrite_error beyond, rfl, outOfBounds_info (by omega)⟩
  · exact ⟨outOfBounds (max a 4096), readRange_error (Nat.pos_of_ne_zero hn) out, rfl,
      outOfBounds_info (by omega)⟩

end Sys2Proof.Machine
end

section
/-! PROOFS. The encoding (30_encoding.md): the operation type of an opcode is the one whose row of the rule
table accepts it, so encoding and decoding undo each other, and the opcodes that no row accepts are the
listed ones. -/

namespace Sys2Proof

variable {f : Fields} {w : Word} {t : OpType}

/-! ### The fields of an opcode as numbers (R91) -/

/-- `nnn` is `x` and `nn`. -/
theorem nnn_eq (w : Word) : (decodeFields w).nnn = (decodeFields w).x ++ (decodeFields w).nn := by
  conv_lhs => rw [opcode_eq_xnn w, decodeFields_xnn]

theorem decodeFields_wellFormed (w : Word) : (decodeFields w).wellFormed = true := by
  simp only [Fields.wellFormed, Bool.and_eq_true]
  exact ⟨⟨beq_iff_eq.mpr (nn_eq w), beq_iff_eq.mpr (nnn_eq w)⟩, beq_iff_eq.mpr (opcode_eq_nnn w)⟩

theorem nibble_toNat (w : Word) : (decodeFields w).nibble.toNat = w.toNat / 4096 := by
  have := w.isLt
  simp only [decodeFields, BitVec.extractLsb'_toNat, Nat.shiftRight_eq_div_pow]
  omega

theorem x_toNat (w : Word) : (decodeFields w).x.toNat = w.toNat / 256 % 16 := by
  simp [decodeFields, BitVec.extractLsb'_toNat, Nat.shiftRight_eq_div_pow]

theorem y_toNat (w : Word) : (decodeFields w).y.toNat = w.toNat / 16 % 16 := by
  simp [decodeFields, BitVec.extractLsb'_toNat, Nat.shiftRight_eq_div_pow]

theorem n_toNat (w : Word) : (decodeFields w).n.toNat = w.toNat % 16 := by
  simp [decodeFields, BitVec.extractLsb'_toNat]

theorem nn_toNat (w : Word) : (decodeFields w).nn.toNat = w.toNat % 256 := by
  simp [decodeFields, BitVec.extractLsb'_toNat]

theorem nnn_toNat (w : Word) : (decodeFields w).nnn.toNat = w.toNat % 4096 := by
  simp [decodeFields, BitVec.extractLsb'_toNat]

/-- Settles O3, field by field; the overlaps by `decodeFields_wellFormed`. -/
theorem fieldsAreTheBitFormulas : Obligations.FieldsAreTheBitFormulas := fun w =>
  ⟨rfl, nibble_toNat w, x_toNat w, y_toNat w, n_toNat w, nn_toNat w, nnn_toNat w,
    decodeFields_wellFormed w⟩

/-! ### The row of an operation type (R94, R95) -/

theorem MatchRule.accepts_iff {r : MatchRule} :
    r.accepts f = true ↔
      f.nibble = r.nibble ∧ (∀ n ∈ r.n, f.n = n) ∧ (∀ nn ∈ r.nn, f.nn = nn) := by
  simp [MatchRule.accepts, and_assoc, Option.all_eq_true, eq_comm (a := f.nibble),
    eq_comm (a := f.n), eq_comm (a := f.nn)]

/-- No two rows of the table have one operation type. -/
theorem matchRules_op_inj {r q : MatchRule} (hr : r ∈ matchRules) (hq : q ∈ matchRules)
    (h : r.op = q.op) : r = q :=
  List.inj_on_of_nodup_map (f := MatchRule.op) (by decide) hr hq h

/-- An opcode has a row's operation type exactly when the row accepts it. -/
theorem classify_eq_some_iff {r : MatchRule} (hr : r ∈ matchRules) :
    classify f = some r.op ↔ r.accepts f = true := by
  refine ⟨fun h => ?_, classify_of_accepts hr⟩
  obtain ⟨q, hq, hop, ha⟩ := accepts_of_classify h
  exact matchRules_op_inj hq hr hop ▸ ha

/-- The operation type of a decoded instruction is the verdict of the classification. -/
theorem map_opType_decodeWord (w : Word) :
    (decodeWord w).map Instr.opType = classify (decodeFields w) := by
  simp [decodeWord, Function.comp_def]

/-! ### The opcode of a classified word, by its format (R92) -/

/-- Format `NNN`. -/
theorem opcode_of_classify_nnn {a : BitVec 4} (hr : { op := t, nibble := a } ∈ matchRules)
    (h : classify (decodeFields w) = some t) : a ++ (decodeFields w).nnn = w := by
  obtain ⟨rfl, -, -⟩ := MatchRule.accepts_iff.mp ((classify_eq_some_iff hr).mp h)
  exact (opcode_eq_nnn w).symm

/-- Format `XNN`. -/
theorem opcode_of_classify_xnn {a : BitVec 4} (hr : { op := t, nibble := a } ∈ matchRules)
    (h : classify (decodeFields w) = some t) : a ++ (decodeFields w).x ++ (decodeFields w).nn = w := by
  obtain ⟨rfl, -, -⟩ := MatchRule.accepts_iff.mp ((classify_eq_some_iff hr).mp h)
  exact (opcode_eq_xnn w).symm

/-- Format `XYN`. -/
theorem opcode_of_classify_xyn {a : BitVec 4} (hr : { op := t, nibble := a } ∈ matchRules)
    (h : classify (decodeFields w) = some t) :
    a ++ (decodeFields w).x ++ (decodeFields w).y ++ (decodeFields w).n = w := by
  obtain ⟨rfl, -, -⟩ := MatchRule.accepts_iff.mp ((classify_eq_some_iff hr).mp h)
  exact (opcode_eq_xyn w).symm

/-- Format `XY`: the row fixes `n`. -/
theorem opcode_of_classify_xy {a n : BitVec 4}
    (hr : { op := t, nibble := a, n := some n } ∈ matchRules)
    (h : classify (decodeFields w) = some t) :
    a ++ (decodeFields w).x ++ (decodeFields w).y ++ n = w := by
  obtain ⟨rfl, hn, -⟩ := MatchRule.accepts_iff.mp ((classify_eq_some_iff hr).mp h)
  obtain rfl := hn n rfl
  exact (opcode_eq_xyn w).symm

/-- Formats `FIXED` and `X`: the row fixes `nn`. -/
theorem opcode_of_classify_x {a : BitVec 4} {nn : Byte}
    (hr : { op := t, nibble := a, nn := some nn } ∈ matchRules)
    (h : classify (decodeFields w) = some t) : a ++ (decodeFields w).x ++ nn = w := by
  obtain ⟨rfl, -, hnn⟩ := MatchRule.accepts_iff.mp ((classify_eq_some_iff hr).mp h)
  obtain rfl := hnn nn rfl
  exact (opcode_eq_xnn w).symm

/-- The fields a row requires and the operands it takes are together all bits of the opcode. -/
theorem encode_withOperands (h : classify (decodeFields w) = some t) :
    encode (withOperands t (decodeFields w)) = w := by
  cases t
  case jump | call | setIndex => exact opcode_of_classify_nnn (by decide) h
  case skipIfVxNnEq | skipIfVxNnNeq | setRegister | add | random =>
    exact opcode_of_classify_xnn (by decide) h
  case display => exact opcode_of_classify_xyn (by decide) h
  case skipIfVxVyEq | setVx | or | and | xor | addVy | subVy | shiftRight | subn | shiftLeft
      | skipIfVxVyNeq =>
    exact opcode_of_classify_xy (by decide) h
  case clearScreen | ret | skipIfKeyEq | skipIfKeyNeq | setVxFromDelay | waitForKey
      | setDelayFromVx | setSoundFromVx | addVxToIndex | font | bcd | loadRegisters
      | storeRegisters =>
    exact opcode_of_classify_x (by decide) h

/-- Settles O2, by the format of the row that accepts the opcode. -/
theorem encodeOfDecodeIsIdentity : Obligations.EncodeOfDecodeIsIdentity := by
  intro w i h
  obtain ⟨row, operands⟩ := decodeWord_eq_some.mp h
  exact operands ▸ encode_withOperands row

/-! ### The opcode of an instruction decodes to it -/

section
open Laws

/-- The row of an instruction accepts its opcode, and its operands are read back. -/
theorem encode_meets_row : ∀ i : Instr, RowMatch.Statement i
  | .clearScreen x => RowMatch.clearScreen x
  | .ret x => RowMatch.ret x
  | .jump nnn => RowMatch.jump nnn
  | .call nnn => RowMatch.call nnn
  | .skipIfVxNnEq x nn => RowMatch.skipIfVxNnEq x nn
  | .skipIfVxNnNeq x nn => RowMatch.skipIfVxNnNeq x nn
  | .skipIfVxVyEq x y => RowMatch.skipIfVxVyEq x y
  | .setRegister x nn => RowMatch.setRegister x nn
  | .add x nn => RowMatch.add x nn
  | .setVx x y => RowMatch.setVx x y
  | .or x y => RowMatch.or x y
  | .and x y => RowMatch.and x y
  | .xor x y => RowMatch.xor x y
  | .addVy x y => RowMatch.addVy x y
  | .subVy x y => RowMatch.subVy x y
  | .shiftRight x y => RowMatch.shiftRight x y
  | .subn x y => RowMatch.subn x y
  | .shiftLeft x y => RowMatch.shiftLeft x y
  | .skipIfVxVyNeq x y => RowMatch.skipIfVxVyNeq x y
  | .setIndex nnn => RowMatch.setIndex nnn
  | .random x nn => RowMatch.random x nn
  | .display x y n => RowMatch.display x y n
  | .skipIfKeyEq x => RowMatch.skipIfKeyEq x
  | .skipIfKeyNeq x => RowMatch.skipIfKeyNeq x
  | .setVxFromDelay x => RowMatch.setVxFromDelay x
  | .waitForKey x => RowMatch.waitForKey x
  | .setDelayFromVx x => RowMatch.setDelayFromVx x
  | .setSoundFromVx x => RowMatch.setSoundFromVx x
  | .addVxToIndex x => RowMatch.addVxToIndex x
  | .font x => RowMatch.font x
  | .bcd x => RowMatch.bcd x
  | .loadRegisters x => RowMatch.loadRegisters x
  | .storeRegisters x => RowMatch.storeRegisters x

end

@[simp] theorem decodeWord_encode (i : Instr) : decodeWord (encode i) = some i := by
  obtain ⟨⟨r, hr, hop, ha⟩, operands⟩ := encode_meets_row i
  exact decodeWord_eq_some.mpr ⟨hop ▸ classify_of_accepts hr ha, operands⟩

theorem decode_encodeBytes (i : Instr) (rest : List Byte) :
    decode (encodeBytes i ++ rest) = .ok (i, rest) := by
  simp [encodeBytes, decode]

/-- Settles O1, on words and on lists of bytes. -/
theorem decodeOfEncodeIsIdentity : Obligations.DecodeOfEncodeIsIdentity := fun i =>
  ⟨decodeWord_encode i, decode_encodeBytes i⟩

/-! ### The rows as match and mask (R95) -/

/-- The match and the mask of a row: `w &&& mask = match` is the row's test of an opcode `w`. -/
def MatchRule.pattern (r : MatchRule) : Word × Word :=
  match r.n, r.nn with
  | none, none => (r.nibble ++ 0#12, 0xF000)
  | some n, _ => (r.nibble ++ 0#8 ++ n, 0xF00F)
  | none, some nn => (r.nibble ++ 0#4 ++ nn, 0xF0FF)

/-- Two concatenations are equal exactly when their pieces are. -/
theorem append_eq_append {u v : Nat} {a b : BitVec u} {n m : BitVec v} :
    a ++ n = b ++ m ↔ a = b ∧ n = m :=
  ⟨append_inj, fun ⟨ha, hn⟩ => by rw [ha, hn]⟩

/-- A row that requires not both of `n` and `nn` accepts the opcodes that meet its pattern. -/
theorem MatchRule.pattern_iff_accepts {r : MatchRule} (notBoth : r.n = none ∨ r.nn = none) :
    w &&& r.pattern.2 = r.pattern.1 ↔ r.accepts (decodeFields w) = true := by
  obtain ⟨op, a, n, nn⟩ := r
  rw [MatchRule.accepts_iff]
  match n, nn, notBoth with
  | none, none, _ =>
    simp only [MatchRule.pattern, ← mask_nibble]
    exact append_eq_append.trans (by simp)
  | some n, none, _ =>
    simp only [MatchRule.pattern, ← mask_nibble_n]
    exact (append_eq_append.trans (and_congr_left' append_eq_append)).trans (by simp)
  | none, some nn, _ =>
    simp only [MatchRule.pattern, ← mask_nibble_nn]
    exact (append_eq_append.trans (and_congr_left' append_eq_append)).trans (by simp)

theorem matchRules_notBoth : ∀ r ∈ matchRules, r.n = none ∨ r.nn = none := by decide

/-- Settles O4: the rows of the spec are the patterns of the decoder's rows, one by one. -/
theorem classificationFollowsTheRuleTable : Obligations.ClassificationFollowsTheRuleTable := by
  intro row hrow
  obtain ⟨r, hr, rfl⟩ : ∃ r ∈ matchRules, (r.op, r.pattern) = row := by
    revert row
    decide
  intro w
  rw [map_opType_decodeWord, classify_eq_some_iff hr]
  exact MatchRule.pattern_iff_accepts (matchRules_notBoth r hr)

/-! ### The unassigned opcodes (R97) -/

/-- An opcode is unassigned exactly when no row accepts it. -/
theorem decodeWord_eq_none : decodeWord w = none ↔
    ∀ r ∈ matchRules, ¬ r.accepts (decodeFields w) = true := by
  rw [decodeWord, Option.map_eq_none_iff, classify, Option.map_eq_none_iff, List.find?_eq_none]

/-- The test of a row on the numbers of an opcode. -/
theorem MatchRule.accepts_iff_toNat {r : MatchRule} : r.accepts (decodeFields w) = true ↔
    w.toNat / 4096 = r.nibble.toNat ∧ (∀ n ∈ r.n, w.toNat % 16 = n.toNat) ∧
      (∀ nn ∈ r.nn, w.toNat % 256 = nn.toNat) := by
  simp only [MatchRule.accepts_iff, ← BitVec.toNat_inj, nibble_toNat, n_toNat, nn_toNat]

/-- Settles O5, nibble by nibble: what its rows leave over. -/
theorem unassignedOpcodesAreTheListed : Obligations.UnassignedOpcodesAreTheListed := by
  intro w
  have nibble_lt : w.toNat / 4096 < 16 := by omega
  have n_lt : w.toNat % 16 < 16 := Nat.mod_lt _ (by decide)
  simp only [decodeWord_eq_none, MatchRule.accepts_iff_toNat]
  generalize w.toNat / 4096 = nibble at *
  generalize w.toNat % 16 = n at *
  generalize w.toNat % 256 = nn at *
  simp only [matchRules, matchRulesLow, matchRulesMiddle, matchRulesHigh, List.cons_append,
    List.nil_append, List.forall_mem_cons, Option.mem_def, Option.some.injEq, reduceCtorEq,
    IsEmpty.forall_iff, forall_eq', implies_true, and_true, true_and, BitVec.reduceToNat]
  interval_cases nibble <;> simp
  -- Nibble 8 is left: R97 lists the values of `n` that its nine rows leave over.
  omega

/-! ### Words of the spec (R104) -/

/-- Settles O6 by decoding the words, row group by row group. -/
theorem sampleWordsDecode : Obligations.SampleWordsDecode :=
  ⟨by decide, by decide, by decide, by decide, by decide⟩

end Sys2Proof
end

section
/-! PROOFS. The cycle (40_cycle.md): what an instruction does to `pc`, the stack, the timers and the
latch, and from that the invariant of every state a host can bring about. -/

namespace Sys2Proof.Machine

variable {s t : State}

/-! ### The faults that can be raised (60_exceptions.md R250) -/

/-- What the fault table allows of a fault that is raised: code 3 never, and an `info` in its range. -/
def Fault.Raisable : Fault → Prop
  | .unhandledOperation opcode => decodeWord opcode = none
  | .outOfBoundsMemory addr => 0x1000 ≤ addr ∧ addr ≤ 0x1000E
  | .invalidRegister => False
  | .stackOverflow => True
  | .stackUnderflow => True
  | .indexOverflow sum => 0x10000 ≤ sum ∧ sum ≤ 0x100FE
  | .invalidFontDigit value => 0x10 ≤ value

/-- The latch holds what the table allows once such a fault is taken. -/
theorem latch_fault_wf (s : State) {f : Fault} (h : f.Raisable) : (s.latch f).fault.wf := by
  cases f with
  | unhandledOperation opcode =>
    have unassigned : decodeWord opcode = none := h
    refine .inl ⟨rfl, ?_, ?_⟩
    · simp only [State.latch_fault, Fault.info]
      bv_omega
    · simpa [Fault.info] using unassigned
  | outOfBoundsMemory addr => exact .inr (.inl ⟨rfl, h⟩)
  | invalidRegister => exact h.elim
  | stackOverflow => exact .inr (.inr (.inl ⟨rfl, rfl⟩))
  | stackUnderflow => exact .inr (.inr (.inr (.inl ⟨rfl, rfl⟩)))
  | indexOverflow sum => exact .inr (.inr (.inr (.inr (.inl ⟨rfl, h⟩))))
  | invalidFontDigit value =>
    have above : 0x10 ≤ value := h
    refine .inr (.inr (.inr (.inr (.inr ⟨rfl, ?_⟩))))
    simp only [State.latch_fault, Fault.info]
    constructor <;> bv_omega

/-- An access outside memory, at most 14 bytes beyond a 16-bit address, raises a fault of the table. -/
theorem outOfBounds_raisable {a : Nat} (out : Config.memSize ≤ a) (near : a ≤ 0x1000E) :
    (outOfBounds a).Raisable := by
  have : 4096 ≤ a := out
  constructor <;> bv_omega

/-! ### What the faulting instructions do -/

/-- A fault that the table allows is taken, and nothing else has changed. -/
def Raises (s t : State) : Prop := ∃ f : Fault, f.Raisable ∧ t = s.latch f

theorem execRet_cases {x : RegIndex} (h : execRet x s = .next t) :
    Raises s t ∨ ∃ k : Fin 16, s.sp = k.succ ∧ t = s.pop k := by
  rcases Fin.eq_zero_or_eq_succ s.sp with empty | ⟨k, depth⟩
  · rw [execRet_empty x empty] at h
    injection h with h
    exact .inl ⟨.stackUnderflow, trivial, h.symm⟩
  · rw [execRet_succ x depth] at h
    injection h with h
    exact .inr ⟨k, depth, h.symm⟩

theorem execCall_cases {nnn : Addr12} (h : execCall nnn s = .next t) :
    Raises s t ∨ ∃ k, t = (s.push k).setPc (zextAddr nnn) := by
  by_cases free : s.sp.val < Config.stackDepth
  · rw [execCall_free nnn free] at h
    injection h with h
    exact .inr ⟨_, h.symm⟩
  · rw [execCall_full nnn free] at h
    injection h with h
    exact .inl ⟨.stackOverflow, trivial, h.symm⟩

/-- A range read that fails raises at the first address outside memory. -/
theorem readRange_eq_error {a n : Nat} {f : Fault} (h : readRange s a n = .error f) :
    f = outOfBounds (max a Config.memSize) := by
  by_cases fits : n = 0 ∨ a + n ≤ Config.memSize
  · obtain ⟨bs, read, -⟩ := readRange_inside (s := s) fits
    rw [read] at h
    cases h
  · obtain ⟨nonempty, out⟩ := not_or.mp fits
    rw [readRange_error (Nat.pos_of_ne_zero nonempty) (Nat.not_le.mp out)] at h
    injection h with h
    exact h.symm

theorem execDisplay_cases {x y : RegIndex} {n : BitVec 4} (h : execDisplay x y n s = .next t) :
    Raises s t ∨ ∃ fb b, t = (s.setFb fb).setFlag b := by
  unfold execDisplay at h
  split at h <;> injection h with h
  next f failed =>
    have := s.index.isLt
    have raisable : f.Raisable := readRange_eq_error failed ▸
      outOfBounds_raisable (le_max_right _ _)
        (max_le (by simp only [effectiveAddr]; omega) (by decide))
    exact .inl ⟨f, raisable, h.symm⟩
  next => exact .inr ⟨_, _, h.symm⟩

theorem execAddVxToIndex_cases {x : RegIndex} (h : execAddVxToIndex x s = .next t) :
    Raises s t ∨ ∃ w, t = s.setIndex w := by
  unfold execAddVxToIndex at h
  dsimp only at h
  split at h <;> injection h with h
  next above =>
    have raisable : (Fault.indexOverflow (.ofNat 17 (s.index.toNat + (s.reg x).toNat))).Raisable := by
      constructor <;> bv_omega
    exact .inl ⟨_, raisable, h.symm⟩
  next => exact .inr ⟨_, h.symm⟩

theorem execFont_cases {x : RegIndex} (h : execFont x s = .next t) :
    Raises s t ∨ ∃ w, t = s.setIndex w := by
  unfold execFont at h
  split at h <;> injection h with h
  next above =>
    have raisable : (Fault.invalidFontDigit (s.reg x)).Raisable := by
      unfold Fault.Raisable
      bv_omega
    exact .inl ⟨_, raisable, h.symm⟩
  next => exact .inr ⟨_, h.symm⟩

theorem execWaitForKey_none (x : RegIndex) (h : s.key = none) :
    execWaitForKey x s = .next (s.setPc (s.pc - 2)) := by
  rw [execWaitForKey, h]

theorem execWaitForKey_cases {x : RegIndex} (h : execWaitForKey x s = .next t) :
    s.key = none ∧ t = s.setPc (s.pc - 2) ∨ ∃ k, s.key = some k ∧ t = s.setReg x k := by
  unfold execWaitForKey at h
  split at h <;> injection h with h
  next noKey => exact .inl ⟨noKey, h.symm⟩
  next k held => exact .inr ⟨k, held, h.symm⟩

theorem skipIf_pc {c : Bool} (h : skipIf c s = .next t) : t.pc = if c then s.pc + 2 else s.pc := by
  rw [skipIf_eq] at h
  injection h with h
  exact h ▸ rfl

/-! ### The latch after an instruction -/

/-- A fault in dispatch: the latch holds a fault of the table, and neither `pc` nor a timer has moved. -/
structure DispatchFault (s t : State) : Prop where
  latched : ∃ f : Fault, f.Raisable ∧ t.fault = (s.latch f).fault
  pc      : t.pc = s.pc
  dt      : t.dt = s.dt
  st      : t.st = s.st

theorem Raises.dispatchFault (h : Raises s t) : DispatchFault s t := by
  obtain ⟨f, raisable, rfl⟩ := h
  exact ⟨⟨f, raisable, rfl⟩, rfl, rfl, rfl⟩

theorem dispatchFault_of_outOfBounds {b : Nat} (out : Config.memSize ≤ b) (near : b ≤ 0x1000E)
    (latched : t.fault = latched 2 b) (pc : t.pc = s.pc) (dt : t.dt = s.dt) (st : t.st = s.st) :
    DispatchFault s t :=
  ⟨⟨outOfBounds b, outOfBounds_raisable out near, latched⟩, pc, dt, st⟩

theorem writeRange_fault_cases {a : Nat} {bs : List Byte} (near : a + bs.length ≤ 0x1000F)
    (h : writeRange s a bs = .next t) : t.fault = s.fault ∨ DispatchFault s t := by
  have frame := writeRange_frame_but_memory h
  rcases writeRange_latch h with kept | ⟨b, out, -, below, latched⟩
  · exact .inl kept
  · exact .inr (dispatchFault_of_outOfBounds out (by omega) latched (frame.pc (by simp))
      (frame.dt (by simp)) (frame.st (by simp)))

theorem loadRegsFrom_fault_cases {base : Nat} {x : RegIndex} (near : base ≤ 0xFFFF)
    (h : loadRegsFrom base (regsUpTo x) s = .next t) : t.fault = s.fault ∨ DispatchFault s t := by
  have frame := loadRegsFrom_frame h
  rcases loadRegsFrom_latch h with kept | ⟨b, out, below, latched⟩
  · exact .inl kept
  · exact .inr (dispatchFault_of_outOfBounds out (by omega) latched (frame.pc (by simp [regParts]))
      (frame.dt (by simp [regParts])) (frame.st (by simp [regParts])))

/-- An instruction leaves the latch alone or faults. -/
theorem exec_fault_cases {i : Instr} (h : exec i s = .next t) :
    t.fault = s.fault ∨ DispatchFault s t := by
  have index_lt := s.index.isLt
  cases i
  case ret x =>
    exact (execRet_cases (x := x) h).symm.imp (fun ⟨_, _, e⟩ => e ▸ rfl) Raises.dispatchFault
  case call =>
    exact (execCall_cases h).symm.imp (fun ⟨_, e⟩ => e ▸ rfl) Raises.dispatchFault
  case display =>
    exact (execDisplay_cases h).symm.imp (fun ⟨_, _, e⟩ => e ▸ rfl) Raises.dispatchFault
  case addVxToIndex =>
    exact (execAddVxToIndex_cases h).symm.imp (fun ⟨_, e⟩ => e ▸ rfl) Raises.dispatchFault
  case font =>
    exact (execFont_cases h).symm.imp (fun ⟨_, e⟩ => e ▸ rfl) Raises.dispatchFault
  case bcd x =>
    have digits : (bcdDigits Config.bcdFixed3 (s.reg x)).length = 3 := rfl
    exact writeRange_fault_cases (by simp only [effectiveAddr, digits]; omega) h
  case loadRegisters x =>
    have := x.isLt
    refine writeRange_fault_cases ?_ h
    simp only [effectiveAddr, List.length_map, regsUpTo_length]
    omega
  case storeRegisters =>
    exact loadRegsFrom_fault_cases (by simp only [effectiveAddr]; omega) h
  all_goals exact .inl ((exec_frame_but_memory h).fault (by simp [mayWrite]))

/-! ### Memory, `pc` and the stack after an instruction -/

theorem exec_mem_of_memory_kept {i : Instr} (kept : i.opType ∉ [.bcd, .loadRegisters])
    (h : exec i s = .next t) : t.mem = s.mem := by
  cases i
  case bcd | loadRegisters => exact absurd kept (by simp [Instr.opType])
  case ret x => obtain ⟨f, -, rfl⟩ | ⟨k, -, rfl⟩ := execRet_cases (x := x) h <;> rfl
  case call => obtain ⟨f, -, rfl⟩ | ⟨k, rfl⟩ := execCall_cases h <;> rfl
  case display => obtain ⟨f, -, rfl⟩ | ⟨fb, b, rfl⟩ := execDisplay_cases h <;> rfl
  case addVxToIndex => obtain ⟨f, -, rfl⟩ | ⟨w, rfl⟩ := execAddVxToIndex_cases h <;> rfl
  case font => obtain ⟨f, -, rfl⟩ | ⟨w, rfl⟩ := execFont_cases h <;> rfl
  case waitForKey => obtain ⟨-, rfl⟩ | ⟨k, -, rfl⟩ := execWaitForKey_cases h <;> rfl
  case storeRegisters x =>
    obtain ⟨w, loaded, ⟨-, e⟩ | ⟨j, -, -, -, e⟩⟩ :=
      loadRegsFrom_spec (base := effectiveAddr s 0) (s := s) (regsUpTo_sorted x)
    · cases e.symm.trans h
      exact loaded.mem
    · cases e.symm.trans h
      exact loaded.mem
  case skipIfVxNnEq | skipIfVxNnNeq | skipIfVxVyEq | skipIfVxVyNeq | skipIfKeyEq | skipIfKeyNeq =>
    cases (skipIf_eq _ s).symm.trans h
    rfl
  all_goals
    injection h with h
    subst h
    rfl

/-- Every instruction keeps the canonical form of memory. -/
theorem exec_wf {i : Instr} (wf : Memory.wf s.mem) (h : exec i s = .next t) : Memory.wf t.mem := by
  by_cases writes : i.opType ∈ [.bcd, .loadRegisters]
  · cases i
    case bcd | loadRegisters => exact writeRange_wf wf h
    all_goals simp [Instr.opType] at writes
  · exact exec_mem_of_memory_kept writes h ▸ wf

/-- The moves of `pc` that dispatch can make on top of fetch's advance (40_cycle.md R131). -/
theorem exec_pc_cases {i : Instr} (h : exec i s = .next t) :
    t.pc = s.pc ∨ t.pc = s.pc + 2 ∨ t.pc = s.pc - 2 ∨ (∃ nnn, t.pc = zextAddr nnn) ∨
      ∃ k, t.pc = s.slot k := by
  cases i
  case jump nnn =>
    injection h with h
    exact .inr (.inr (.inr (.inl ⟨nnn, h ▸ rfl⟩)))
  case call nnn =>
    rcases execCall_cases h with ⟨f, -, rfl⟩ | ⟨k, rfl⟩
    · exact .inl rfl
    · exact .inr (.inr (.inr (.inl ⟨nnn, rfl⟩)))
  case ret x =>
    rcases execRet_cases (x := x) h with ⟨f, -, rfl⟩ | ⟨k, -, rfl⟩
    · exact .inl rfl
    · exact .inr (.inr (.inr (.inr ⟨k, rfl⟩)))
  case skipIfVxNnEq | skipIfVxNnNeq | skipIfVxVyEq | skipIfVxVyNeq | skipIfKeyEq | skipIfKeyNeq =>
    have skip := skipIf_pc h
    split at skip
    · exact .inr (.inl skip)
    · exact .inl skip
  case waitForKey =>
    rcases execWaitForKey_cases h with ⟨-, rfl⟩ | ⟨k, -, rfl⟩
    · exact .inr (.inr (.inl rfl))
    · exact .inl rfl
  all_goals exact .inl ((exec_frame_but_memory h).pc (by simp [mayWrite, bytesAtIndex, regParts]))

/-- A slot of the stack keeps its value, or a CALL has saved `pc` in it. -/
theorem exec_slot_cases {i : Instr} (h : exec i s = .next t) (k : Fin 16) :
    t.slot k = s.slot k ∨ t.slot k = s.pc := by
  cases i
  case call =>
    rcases execCall_cases h with ⟨f, -, rfl⟩ | ⟨j, rfl⟩
    · exact .inl rfl
    · rw [State.setPc_slot, State.push_slot]
      split
      · exact .inr rfl
      · exact .inl rfl
  all_goals
    exact .inl ((exec_frame_but_memory h).slots k (by simp [mayWrite, bytesAtIndex, regParts]))

/-! ### The invariant (40_cycle.md R131) -/

theorem zextAddr_toNat (nnn : Addr12) : (zextAddr nnn).toNat = nnn.toNat := by
  have := nnn.isLt
  simp only [zextAddr, BitVec.toNat_setWidth]
  omega

theorem State.Inv.latch (inv : s.Inv) {f : Fault} (h : f.Raisable) : (s.latch f).Inv := by
  obtain ⟨wf, pc, slots, -⟩ := inv
  exact ⟨wf, pc, slots, latch_fault_wf s h⟩

theorem State.Inv.tick (inv : s.Inv) : s.tick.Inv := inv

theorem State.Inv.setKey (inv : s.Inv) (k : Option Byte) : (s.setKey k).Inv := inv

/-- A fetch succeeds only up to 0xFFE, so the advanced `pc` is within the bound. -/
theorem State.Inv.advancePc (inv : s.Inv) (fetched : s.pc.toNat + 1 < Config.memSize) :
    s.advancePc.Inv := by
  obtain ⟨wf, -, slots, latch⟩ := inv
  have : s.pc.toNat + 1 < 4096 := fetched
  refine ⟨wf, ?_, slots, latch⟩
  rw [State.advancePc_pc]
  bv_omega

/-- An instruction run after a fetch keeps the invariant. -/
theorem exec_keeps_inv {i : Instr} (inv : s.Inv) (fetched : s.pc.toNat + 1 < Config.memSize)
    (h : exec i s.advancePc = .next t) : t.Inv := by
  obtain ⟨wf, -, slots, latch⟩ := inv
  have : s.pc.toNat + 1 < 4096 := fetched
  refine ⟨exec_wf (s := s.advancePc) wf h, ?_, fun k => ?_, ?_⟩
  · rcases exec_pc_cases h with e | e | e | ⟨nnn, e⟩ | ⟨k, e⟩ <;> rw [e]
    · rw [State.advancePc_pc]; bv_omega
    · rw [State.advancePc_pc]; bv_omega
    · rw [State.advancePc_pc]; bv_omega
    · have := zextAddr_toNat nnn
      bv_omega
    · exact BitVec.le_trans (slots k) (by decide)
  · rcases exec_slot_cases h k with e | e <;> rw [e]
    · exact slots k
    · rw [State.advancePc_pc]; bv_omega
  · rcases exec_fault_cases h with kept | fault
    · exact kept ▸ latch
    · obtain ⟨f, raisable, e⟩ := fault.latched
      exact e ▸ latch_fault_wf s raisable

/-- Settles O12: the four kinds of step, and for an instruction the three bounds of R131. -/
theorem stepKeepsTheInvariant : Obligations.StepKeepsTheInvariant := by
  intro s t inv h
  rcases step_cases s with ⟨-, e⟩ | ⟨-, out, e⟩ | ⟨-, fetched, unassigned, e⟩ | ⟨i, -, fetches, e⟩ <;>
    rw [e] at h
  · injection h with h
    exact h ▸ inv
  · injection h with h
    have ⟨_, pc, _, _⟩ := inv
    have : s.pc.toNat ≤ 0x1002 := BitVec.le_def.mp pc
    exact h ▸ inv.latch (outOfBounds_raisable (le_max_right _ _) (by omega))
  · injection h with h
    exact h ▸ (inv.advancePc fetched).latch unassigned
  · obtain ⟨u, hu, rfl⟩ := finish_eq_next.mp h
    have effect := exec_keeps_inv inv fetches.1 hu
    split
    · exact effect
    · exact effect.tick

/-- A range write keeps the invariant, whether or not it raises. -/
theorem writeRange_keeps_inv {a : Nat} {bs : List Byte} (inv : s.Inv) (near : a ≤ 0x1000E)
    (h : writeRange s a bs = .next t) : t.Inv := by
  obtain ⟨wf, pc, slots, latch⟩ := inv
  obtain ⟨w, ⟨wf', -, frame⟩, e⟩ := writeRange_spec (bs := bs) (a := a) wf
  have written : w.Inv :=
    ⟨wf', frame.pc (by simp) ▸ pc, fun k => frame.slots k (by simp) ▸ slots k,
      frame.fault (by simp) ▸ latch⟩
  rw [h] at e
  split at e <;> injection e with e
  · exact e ▸ written
  · exact e ▸ written.latch (outOfBounds_raisable (le_max_right _ _) (max_le near (by decide)))

/-- A reset in the middle of a run ends in the block after power-on (70_reset_and_hazards.md R290). -/
theorem restart_inv (s : State) : s.restart.Inv := resetMeetsTheInvariant

/-- Every launch, that of a ROM too long included, ends in a state of the invariant. -/
theorem launch_inv {rom : List Byte} (h : s.launch rom = .next t) : t.Inv :=
  writeRange_keeps_inv (restart_inv s) (by decide) h

/-- Settles O15, along the moves that make a state reachable. -/
theorem reachableStatesMeetTheInvariant : Obligations.ReachableStatesMeetTheInvariant := by
  intro s reachable
  induction reachable with
  | launch _ loaded => exact launch_inv loaded
  | key k _ inv => exact inv.setKey k
  | cycle _ stepped inv => exact stepKeepsTheInvariant _ _ inv stepped

/-! ### The halted block (40_cycle.md R121) -/

theorem setKey_frame (s : State) (k : Option Byte) : SameBut [.key] s (s.setKey k) := by
  constructor <;> intros <;> simp_all

/-- Cycle requests and key changes of a halted block leave it as it is but for the last key. -/
theorem hostMoves_halted (halted : s.fault.valid = true) : ∀ (ms : List HostMove) (k : Option Byte),
    (∀ m ∈ ms, m = .cycle ∨ ∃ k, m = .setKey k) →
    ∃ k', hostMoves ms (s.setKey k) = .next (s.setKey k')
  | [], k, _ => ⟨k, rfl⟩
  | m :: ms, k, allowed => by
    have rest : ∀ m ∈ ms, m = .cycle ∨ ∃ k, m = .setKey k :=
      fun m hm => allowed m (List.mem_cons_of_mem _ hm)
    rcases allowed m List.mem_cons_self with rfl | ⟨k', rfl⟩
    · rw [hostMoves_cons (m := .cycle) (step_halted (s := s.setKey k) halted)]
      exact hostMoves_halted halted ms k rest
    · rw [hostMoves_cons (t := s.setKey k') rfl]
      exact hostMoves_halted halted ms k' rest

/-- Settles O8: the block with its own key, and after any moves with another. -/
theorem faultedBlockStaysHalted : Obligations.FaultedBlockStaysHalted := by
  intro s halted
  refine ⟨step_halted halted, fun ms allowed => ?_⟩
  obtain ⟨k, moved⟩ := hostMoves_halted halted ms s.key allowed
  exact ⟨s.setKey k, moved, rfl, setKey_frame s k⟩

/-! ### The cycle of a decoded instruction (40_cycle.md R126 to R129) -/

/-- Settles O7: `finish` is the tick unless the effect raised a fault or the cycle waits. -/
theorem stepRunsTheDecodedInstruction : Obligations.StepRunsTheDecodedInstruction := by
  intro s i running fetches
  refine ⟨rfl, setPc_frame s _, rfl, ?_⟩
  rw [step_fetches running fetches]
  cases exec i s.advancePc with
  | next u => simp only [finish, endCycle_eq, waits_iff]
  | fault f => rfl
  | refused r => rfl

/-- Settles O17: `pc` goes back by the 2 that fetch has added, and the tick is skipped. -/
theorem waitingCycleIsTheIdentity : Obligations.WaitingCycleIsTheIdentity := by
  intro s x running fetches noKey
  have back : exec (.waitForKey x) s.advancePc = .next (s.advancePc.setPc (s.pc + 2 - 2)) :=
    execWaitForKey_none (s := s.advancePc) x noKey
  rw [step_fetches running fetches, back, BitVec.add_sub_cancel]
  exact finish_eq_next.mpr ⟨s, rfl, by simp [waits_iff, Instr.opType, noKey]⟩

/-- A cycle that fetches an instruction has its effect, and then the tick unless it faults or waits. -/
theorem effect_of_step {i : Instr} (running : Running s) (fetches : Fetches s i)
    (h : step s = .next t) : ∃ u, exec i s.advancePc = .next u ∧
      t = if u.fault.valid ∨ waits i s then u else u.tick :=
  finish_eq_next.mp (step_fetches running fetches ▸ h)

/-- Beyond the timers, a cycle leaves what the effect of its instruction left. -/
theorem effect_frame {i : Instr} (running : Running s) (fetches : Fetches s i)
    (h : step s = .next t) : ∃ u, exec i s.advancePc = .next u ∧ SameBut [.dt, .st] u t := by
  obtain ⟨u, hu, rfl⟩ := effect_of_step running fetches h
  refine ⟨u, hu, ?_⟩
  split
  · exact SameBut.refl u _
  · exact tick_frame u

/-- An effect that ends in a faulted block, begun in one that runs, has raised its fault in dispatch. -/
theorem dispatchFault_of_exec {i : Instr} (running : Running s) (h : exec i s = .next t)
    (faulted : t.fault.valid = true) : DispatchFault s t := by
  refine (exec_fault_cases h).resolve_left fun kept => ?_
  rw [kept, running] at faulted
  cases faulted

/-! ### The timers over a cycle -/

/-- `DT` before the tick: SET_DELAY_FROM_VX alone writes it. -/
def delayWritten (i : Instr) (s : State) : Byte :=
  match i with
  | .setDelayFromVx x => s.reg x
  | _ => s.dt

/-- `ST` before the tick: SET_SOUND_FROM_VX alone writes it. -/
def soundWritten (i : Instr) (s : State) : Byte :=
  match i with
  | .setSoundFromVx x => s.reg x
  | _ => s.st

theorem exec_dt {i : Instr} (h : exec i s = .next t) : t.dt = delayWritten i s := by
  cases i
  case setDelayFromVx =>
    injection h with h
    exact h ▸ rfl
  all_goals
    exact (exec_frame_but_memory h).dt (by simp [mayWrite, nextSlot, bytesAtIndex, regParts])

theorem exec_st {i : Instr} (h : exec i s = .next t) : t.st = soundWritten i s := by
  cases i
  case setSoundFromVx =>
    injection h with h
    exact h ▸ rfl
  all_goals
    exact (exec_frame_but_memory h).st (by simp [mayWrite, nextSlot, bytesAtIndex, regParts])

/-- Settles O16: where the tick is skipped the effect has left the timers alone, and the tick counts from
what it has written. -/
theorem timersTickOncePerCompletedCycle : Obligations.TimersTickOncePerCompletedCycle := by
  intro s t i running fetches h
  obtain ⟨u, hu, rfl⟩ := effect_of_step running fetches h
  have dt := exec_dt hu
  have st := exec_st hu
  by_cases skipped : u.fault.valid = true ∨ waits i s = true
  · rw [if_pos skipped, if_pos (skipped.imp_right waits_iff.mp)]
    rcases skipped with faulted | waiting
    · have fault := dispatchFault_of_exec (s := s.advancePc) running hu faulted
      exact ⟨fault.dt, fault.st⟩
    · obtain ⟨wait, -⟩ := waits_iff.mp waiting
      cases i <;> cases wait
      exact ⟨dt, st⟩
  · have ticks : ¬ (u.tick.fault.valid = true ∨ (i.opType = .waitForKey ∧ s.key = none)) :=
      mt (Or.imp_right waits_iff.mpr) skipped
    rw [if_neg skipped, if_neg ticks, State.tick_dt, State.tick_st, tickTimer_toNat,
      tickTimer_toNat, dt, st]
    cases i <;> exact ⟨rfl, rfl⟩

/-! ### The moves of `pc` over a cycle (40_cycle.md R130) -/

/-- A skip after fetch's advance. -/
theorem skipIf_advancePc_pc {c : Bool} {holds : Prop} [Decidable holds] (cond : c = true ↔ holds)
    (h : skipIf c s.advancePc = .next t) : t.pc = if holds then s.pc + 4 else s.pc + 2 := by
  rw [skipIf_pc h, State.advancePc_pc, BitVec.add_assoc]
  exact if_congr cond rfl rfl

/-- A state that has raised a fault is not a running one. -/
theorem Raises.not_running (h : Raises s t) : ¬ Running t := by
  obtain ⟨f, -, rfl⟩ := h
  exact Bool.noConfusion

/-- Settles O18, kind of step by kind of step and, for an instruction that has not faulted, row by row. -/
theorem pcMovesAsTheTableSays : Obligations.PcMovesAsTheTableSays := by
  intro s t running h
  refine ⟨fun out => ?_, fun fetched unassigned => ?_, fun i fetches faulted => ?_,
    fun i fetches completed => ?_⟩
  · cases (step_fetch_fault running out).symm.trans h
    exact ⟨rfl, rfl⟩
  · cases (step_unassigned running fetched unassigned).symm.trans h
    exact ⟨rfl, rfl⟩
  · obtain ⟨u, hu, frame⟩ := effect_frame running fetches h
    rw [frame.fault (by simp)] at faulted
    exact (frame.pc (by simp)).trans (dispatchFault_of_exec (s := s.advancePc) running hu faulted).pc
  · obtain ⟨u, hu, frame⟩ := effect_frame running fetches h
    have pc : t.pc = u.pc := frame.pc (by simp)
    have running' : u.fault.valid = false := frame.fault (by simp) ▸ completed
    cases i
    case jump nnn =>
      injection hu with hu
      rw [pc, ← hu]
      exact zextAddr_toNat nnn
    case call nnn =>
      obtain ⟨k, rfl⟩ := (execCall_cases hu).resolve_left fun raised =>
        raised.not_running running'
      refine ⟨(congrArg BitVec.toNat pc).trans (zextAddr_toNat nnn), fun j depth => ?_⟩
      obtain rfl : k = j := Fin.succ_inj.mp ((frame.sp (by simp)).symm.trans depth)
      rw [frame.slots k (by simp), State.setPc_slot, State.push_slot, if_pos rfl]
      rfl
    case ret x =>
      obtain ⟨j, depth, rfl⟩ := (execRet_cases (x := x) hu).resolve_left fun raised =>
        raised.not_running running'
      intro k depth'
      obtain rfl : j = k := Fin.succ_inj.mp (depth.symm.trans depth')
      exact pc
    case skipIfVxNnEq | skipIfVxNnNeq | skipIfVxVyEq | skipIfVxVyNeq | skipIfKeyEq | skipIfKeyNeq =>
      exact pc.trans (skipIf_advancePc_pc (by simp [keyIs]) hu)
    case waitForKey =>
      rcases execWaitForKey_cases hu with ⟨noKey, rfl⟩ | ⟨k, held, rfl⟩
      · rw [State.advancePc_key] at noKey
        simp only [pc, noKey, if_pos]
        exact BitVec.add_sub_cancel _ _
      · rw [State.advancePc_key] at held
        simp only [pc, held, reduceCtorEq, if_false]
        rfl
    all_goals
      exact pc.trans ((exec_frame_but_memory hu).pc (by simp [mayWrite, bytesAtIndex, regParts]))

end Sys2Proof.Machine
end

section
/-! PROOFS. Control transfer (41_control_transfer.md): RETURN and CALL by the depth of the stack, JUMP with
the fetch at its target, and the register skips. -/

namespace Sys2Proof.Machine

variable {s t : State}

/-! ### The stack instructions (41_control_transfer.md R140, R142) -/

/-- Settles O26: `pop` on depth `k + 1`, the fault on depth 0. -/
theorem returnTakesTheTopSlot : Obligations.ReturnTakesTheTopSlot := fun x s =>
  ⟨fun k depth => ⟨s.pop k, execRet_succ x depth, rfl, rfl, (pop_frame s k).mono (by simp)⟩,
   fun empty => ⟨s.latch .stackUnderflow, execRet_empty x empty, rfl, latch_frame s _⟩⟩

theorem execCall_castSucc (nnn : Addr12) {k : Fin 16} (h : s.sp = k.castSucc) :
    execCall nnn s = .next ((s.push k).setPc (zextAddr nnn)) := by
  have depth : s.sp.val = k.val := congrArg Fin.val h
  have free : s.sp.val < Config.stackDepth := depth ▸ k.isLt
  have slot : (⟨s.sp.val, free⟩ : Fin 16) = k := Fin.ext depth
  rw [execCall_free nnn free, slot]

theorem execCall_last (nnn : Addr12) (h : s.sp = Fin.last 16) :
    execCall nnn s = raise .stackOverflow s :=
  execCall_full nnn (by simp [h])

/-- A slot is a read of the stack alone. -/
theorem slot_congr (h : t.stack = s.stack) (k : Fin 16) : t.slot k = s.slot k :=
  congrArg (fun stack : Vector Word 16 => stack[k]) h

/-- The slot a CALL has pushed holds the `pc` it was executed with. -/
theorem push_setPc_slot (s : State) (k : Fin 16) (target : Word) :
    ((s.push k).setPc target).slot k = s.pc := by
  rw [State.setPc_slot, State.push_slot, if_pos rfl]

/-- Settles O28: the push and the jump on depth `k`, the fault on depth 16. -/
theorem callSavesThePcAndJumps : Obligations.CallSavesThePcAndJumps := by
  refine fun nnn s => ⟨fun k depth => ?_, fun full => ?_⟩
  · have frame : SameBut [.pc, .sp, .slot k] s ((s.push k).setPc (zextAddr nnn)) :=
      ((push_frame s k).append (setPc_frame _ _)).mono (by simp)
    exact ⟨_, execCall_castSucc nnn depth, zextAddr_toNat nnn, rfl, push_setPc_slot s k _, frame⟩
  · exact ⟨s.latch .stackOverflow, execCall_last nnn full, rfl, latch_frame s _⟩

/-- Settles O29: the RETURN pops the slot that the CALL has pushed. -/
theorem returnUndoesCall : Obligations.ReturnUndoesCall := by
  intro nnn x s free
  obtain ⟨k, depth⟩ := Fin.exists_castSucc_eq.mpr free
  refine ⟨_, execCall_castSucc nnn depth.symm, fun t' sp stack => ?_⟩
  have saved : t'.slot k = s.pc := (slot_congr stack k).trans (push_setPc_slot s k _)
  exact ⟨t'.pop k, execRet_succ x sp, saved, depth, (pop_frame t' k).mono (by simp)⟩

/-! ### JUMP (41_control_transfer.md R141) -/

/-- At 0xFFF the second byte of an opcode is the first address outside memory. -/
theorem fetchOpcode_at_last (h : s.pc.toNat = 0xFFF) :
    fetchOpcode s = .error (.outOfBoundsMemory 0x1000) := by
  rw [fetchOpcode_error (by rw [h]), h]
  rfl

/-- Settles O27: the row of nibble 1, and the fetch at the target. -/
theorem jumpSetsThePc : Obligations.JumpSetsThePc := by
  refine ⟨decodesUnder_nibble .jump (by decide) rfl, fun nnn s => ?_⟩
  have target : (s.setPc (zextAddr nnn)).pc.toNat = nnn.toNat := zextAddr_toNat nnn
  refine ⟨_, rfl, target, setPc_frame s _, fun last => ?_, fun notLast => ?_⟩
  · exact fetchOpcode_at_last (by rw [target, last]; rfl)
  · have inside : nnn.toNat + 1 < Config.memSize := by
      show nnn.toNat + 1 < 4096
      bv_omega
    exact ⟨_, fetchOpcode_ok (target ▸ inside)⟩

/-! ### The register skips (41_control_transfer.md R143 to R147) -/

/-- A skip leaves `pc` where its condition says, and everything else alone. -/
theorem skipIf_answers {c : Bool} {target : Word} (h : target = if c then s.pc + 2 else s.pc) :
    ∃ t, skipIf c s = .next t ∧ SameBut [.pc] s t ∧ t.pc = target :=
  ⟨_, skipIf_eq c s, setPc_frame s _, h.symm⟩

/-- Settles O30: the four rows, and each skip by its condition. -/
theorem registerSkipsTestTheirCondition : Obligations.RegisterSkipsTestTheirCondition := by
  refine ⟨decodesUnder_nibble .skipIfVxNnEq (by decide) rfl,
    decodesUnder_nibble .skipIfVxNnNeq (by decide) rfl,
    decodesUnder_nibble_n .skipIfVxVyEq (by decide) rfl rfl,
    decodesUnder_nibble_n .skipIfVxVyNeq (by decide) rfl rfl, fun x y nn s => ⟨?_, ?_, ?_, ?_⟩⟩
  · exact skipIf_answers (c := s.reg x == nn) (by simp)
  · exact skipIf_answers (c := s.reg x != nn) (by simp)
  · exact skipIf_answers (c := s.reg x == s.reg y) (by simp)
  · exact skipIf_answers (c := s.reg x != s.reg y) (by simp)

end Sys2Proof.Machine
end

section
/-! PROOFS. Registers and arithmetic (42_register_alu.md): the instructions that write one register, ADD_VY,
the four instructions that write the flag before their value, and RANDOM. -/

namespace Sys2Proof.Machine

/-! ### The instructions that write one register (42_register_alu.md R161 to R166) -/

/-- A register reads what was just written to it. -/
theorem State.setReg_reg_self (s : State) (x : RegIndex) (b : Byte) : (s.setReg x b).reg x = b := by
  rw [State.setReg_reg, if_pos rfl]

/-- Settles O31: the row of nibble 6, and the write of `nn`. -/
theorem setRegisterLoadsTheImmediate : Obligations.SetRegisterLoadsTheImmediate :=
  ⟨decodesUnder_nibble .setRegister (by decide) rfl, fun x nn s =>
    ⟨_, rfl, State.setReg_reg_self s x nn, setReg_frame s x nn⟩⟩

/-- Settles O32: the row of nibble 7, and the write of the byte sum, which is the sum modulo 256. -/
theorem addWrapsAndSetsNoFlag : Obligations.AddWrapsAndSetsNoFlag := by
  refine ⟨decodesUnder_nibble .add (by decide) rfl, fun x nn s => ?_⟩
  refine ⟨_, rfl, ?_, setReg_frame s x _⟩
  rw [State.setReg_reg_self, BitVec.toNat_add]

/-- Settles O33: the row of nibble 8 with `n = 0`, and the write of `V[y]`. -/
theorem setVxCopiesARegister : Obligations.SetVxCopiesARegister :=
  ⟨decodesUnder_nibble_n .setVx (by decide) rfl rfl, fun x y s =>
    ⟨_, rfl, State.setReg_reg_self s x (s.reg y), setReg_frame s x _⟩⟩

/-- Settles O34: the rows of nibble 8 with `n` 1 to 3, and each byte operation by its bits. -/
theorem logicOperationsAreBitwise : Obligations.LogicOperationsAreBitwise := by
  refine ⟨decodesUnder_nibble_n .or (by decide) rfl rfl,
    decodesUnder_nibble_n .and (by decide) rfl rfl,
    decodesUnder_nibble_n .xor (by decide) rfl rfl, fun x y s =>
    ⟨⟨_, rfl, setReg_frame s x _, fun b => ?_⟩, ⟨_, rfl, setReg_frame s x _, fun b => ?_⟩,
     ⟨_, rfl, setReg_frame s x _, fun b => ?_⟩⟩⟩
  · rw [State.setReg_reg_self, BitVec.getLsbD_or]
  · rw [State.setReg_reg_self, BitVec.getLsbD_and]
  · rw [State.setReg_reg_self, BitVec.getLsbD_xor]

/-! ### ADD_VY (42_register_alu.md R167) -/

theorem State.setFlag_reg_VF (s : State) (b : Byte) : (s.setFlag b).reg 0xF = b :=
  State.setReg_reg_self s flagIndex b

theorem State.setFlag_reg_of_ne {j : RegIndex} (s : State) (b : Byte) (h : j ≠ 0xF) :
    (s.setFlag b).reg j = s.reg j :=
  (State.setFlag_reg s j b).trans (if_neg h)

/-- The flag is 1 from the exact sum 255 on (92_eei_decisions.md D24). -/
theorem sumFlag_toNat (a b : Byte) :
    (sumFlag Config.carryThreshold a b).toNat = if a.toNat + b.toNat ≥ 255 then 1 else 0 := by
  rw [sumFlag, flagByte_toNat, exactSum]
  exact if_congr decide_eq_true_iff rfl rfl

/-- Settles O35: the flag's write comes last, and reaches the sum in `V[x]` where `x` is 0xF alone. -/
theorem addVySetsTheFlagFrom255 : Obligations.AddVySetsTheFlagFrom255 := by
  refine ⟨decodesUnder_nibble_n .addVy (by decide) rfl rfl, fun x y s => ?_⟩
  refine ⟨_, rfl, fun hx => ?_, ?_, (setReg_frame s x _).append (setReg_frame _ 0xF _)⟩
  · rw [State.setFlag_reg_of_ne _ _ hx, State.setReg_reg_self, BitVec.toNat_add]
  · rw [State.setFlag_reg_VF, sumFlag_toNat]

/-! ### Flag first, value second (42_register_alu.md R168 to R171) -/

/-- The state after the write of the flag and then of `op` of the two registers as that write left them
(40_cycle.md R125). -/
def State.flagThen (s : State) (flag : Byte) (op : Byte → Byte → Byte) (x y : RegIndex) : State :=
  (s.setFlag flag).setReg x (op ((s.setFlag flag).reg x) ((s.setFlag flag).reg y))

theorem execSubVy_eq (x y : RegIndex) (s : State) : execSubVy x y s =
    .next (s.flagThen (greaterFlag (s.reg x) (s.reg y)) (fun a b => a - b) x y) := rfl

theorem execSubn_eq (x y : RegIndex) (s : State) : execSubn x y s =
    .next (s.flagThen (greaterFlag (s.reg y) (s.reg x)) (fun a b => b - a) x y) := rfl

theorem execShiftRight_eq (x y : RegIndex) (s : State) : execShiftRight x y s =
    .next (s.flagThen (lowBitFlag (s.reg x)) (fun _ b => b >>> 1) x y) := rfl

theorem execShiftLeft_eq (x y : RegIndex) (s : State) : execShiftLeft x y s =
    .next (s.flagThen (highBitFlag (s.reg x)) (fun _ b => b <<< 1) x y) := rfl

/-- The rows of the tables of R168 to R171 by the operands that are `VF`: such an operand reads the flag
`f`, already written, in place of its old value. -/
structure FlagFirstRows (s t : State) (x y : RegIndex) (f : Nat)
    (value : Nat → Nat → Nat) : Prop where
  neither : x ≠ 0xF → y ≠ 0xF →
    (t.reg 0xF).toNat = f ∧ (t.reg x).toNat = value (s.reg x).toNat (s.reg y).toNat
  source : y = 0xF → x ≠ 0xF →
    (t.reg 0xF).toNat = f ∧ (t.reg x).toNat = value (s.reg x).toNat f
  target : x = 0xF → y ≠ 0xF → (t.reg 0xF).toNat = value f (s.reg y).toNat
  both : x = 0xF → y = 0xF → (t.reg 0xF).toNat = value f f

theorem State.flagThen_frame (s : State) (flag : Byte) (op : Byte → Byte → Byte) (x y : RegIndex) :
    SameBut [.reg x, .reg 0xF] s (s.flagThen flag op x y) :=
  ((setReg_frame s 0xF flag).append (setReg_frame _ x _)).mono (by simp)

section
variable {s : State} {flag : Byte} {op : Byte → Byte → Byte} {x y : RegIndex}

/-- A value written beside `VF` leaves the flag there. -/
theorem State.flagThen_reg_VF (hx : x ≠ 0xF) : (s.flagThen flag op x y).reg 0xF = flag := by
  rw [State.flagThen, State.setReg_reg, if_neg hx.symm, State.setFlag_reg_VF]

theorem State.flagThen_reg_self : (s.flagThen flag op x y).reg x =
    op ((s.setFlag flag).reg x) ((s.setFlag flag).reg y) :=
  State.setReg_reg_self _ _ _

/-- The table of an instruction whose flag is `f` and whose operation is `value` on numbers. -/
theorem State.flagThen_rows (s : State) (x y : RegIndex) {f : Nat} {value : Nat → Nat → Nat}
    (hf : flag.toNat = f) (hvalue : ∀ a b, (op a b).toNat = value a.toNat b.toNat) :
    FlagFirstRows s (s.flagThen flag op x y) x y f value := by
  subst hf
  constructor
  case neither =>
    intro hx hy
    rw [State.flagThen_reg_VF hx, State.flagThen_reg_self, hvalue, State.setFlag_reg_of_ne _ _ hx,
      State.setFlag_reg_of_ne _ _ hy]
    exact ⟨rfl, rfl⟩
  case source =>
    rintro rfl hx
    rw [State.flagThen_reg_VF hx, State.flagThen_reg_self, hvalue, State.setFlag_reg_of_ne _ _ hx,
      State.setFlag_reg_VF]
    exact ⟨rfl, rfl⟩
  case target =>
    rintro rfl hy
    rw [State.flagThen_reg_self, hvalue, State.setFlag_reg_VF, State.setFlag_reg_of_ne _ _ hy]
  case both =>
    rintro rfl rfl
    rw [State.flagThen_reg_self, hvalue, State.setFlag_reg_VF]

end

/-! ### The two differences (42_register_alu.md R168, R170) -/

theorem greaterFlag_toNat (a b : Byte) :
    (greaterFlag a b).toNat = if a.toNat > b.toNat then 1 else 0 := by
  rw [greaterFlag, flagByte_toNat]
  exact if_congr (decide_eq_true_iff.trans BitVec.lt_def) rfl rfl

theorem subMod_self (a : Nat) : subMod a a = 0 := by
  rw [subMod, Nat.add_sub_cancel_left]

/-- Settles O36; a register less itself is the row of two operands beside `VF`, with flag and value 0. -/
theorem subVyByItsTable : Obligations.SubVyByItsTable := by
  refine ⟨decodesUnder_nibble_n .subVy (by decide) rfl rfl, fun x y s => ?_⟩
  have rows := State.flagThen_rows s x y (greaterFlag_toNat (s.reg x) (s.reg y)) sub_toNat
  refine ⟨_, execSubVy_eq x y s, State.flagThen_frame .., rows.neither, ?_, rows.source, rows.target,
    fun hx hy => (rows.both hx hy).trans (subMod_self _)⟩
  rintro rfl hx
  simpa [subMod_self] using rows.neither hx hx

/-- Settles O38: the table of O36 with the operands exchanged. -/
theorem subnByItsTable : Obligations.SubnByItsTable := by
  refine ⟨decodesUnder_nibble_n .subn (by decide) rfl rfl, fun x y s => ?_⟩
  have rows := State.flagThen_rows s x y (greaterFlag_toNat (s.reg y) (s.reg x))
    (value := fun a b => subMod b a) fun a b => sub_toNat b a
  refine ⟨_, execSubn_eq x y s, State.flagThen_frame .., rows.neither, ?_, rows.source, rows.target,
    fun hx hy => (rows.both hx hy).trans (subMod_self _)⟩
  rintro rfl hx
  simpa [subMod_self] using rows.neither hx hx

/-! ### The two shifts (42_register_alu.md R169, R171) -/

/-- Settles O37: the flag, at most 1, is shifted to 0. -/
theorem shiftRightByItsTable : Obligations.ShiftRightByItsTable := by
  refine ⟨decodesUnder_nibble_n .shiftRight (by decide) rfl rfl, fun x y s => ?_⟩
  have rows := State.flagThen_rows s x y (lowBitFlag_toNat (s.reg x))
    (value := fun _ b => b / 2) fun _ b => shiftRight_toNat b
  have shifted : (s.reg x).toNat % 2 / 2 = 0 := by omega
  exact ⟨_, execShiftRight_eq x y s, State.flagThen_frame .., rows.neither,
    fun hy hx => (rows.source hy hx).imp_right (·.trans shifted), rows.target,
    fun hx hy => (rows.both hx hy).trans shifted⟩

/-- Settles O39: the flag, at most 1, is doubled. -/
theorem shiftLeftByItsTable : Obligations.ShiftLeftByItsTable := by
  refine ⟨decodesUnder_nibble_n .shiftLeft (by decide) rfl rfl, fun x y s => ?_⟩
  have rows := State.flagThen_rows s x y (highBitFlag_toNat (s.reg x))
    (value := fun _ b => b * 2 % 256) fun _ b => shiftLeft_toNat b
  have shifted : (s.reg x).toNat / 128 * 2 % 256 = 2 * ((s.reg x).toNat / 128) := by
    have := (s.reg x).isLt
    omega
  exact ⟨_, execShiftLeft_eq x y s, State.flagThen_frame .., rows.neither,
    fun hy hx => (rows.source hy hx).imp_right (·.trans shifted), rows.target,
    fun hx hy => (rows.both hx hy).trans shifted⟩

/-! ### RANDOM (42_register_alu.md R172) -/

theorem execRandom_reg (x : RegIndex) (nn : Byte) (s : State) :
    ((s.setReg x (s.rnd &&& nn)).drawn).reg x = s.rnd &&& nn := by
  rw [State.drawn_reg, State.setReg_reg_self]

/-- Settles O40: the byte drawn, whatever it is, is masked; the port moves by one draw. -/
theorem randomMasksTheDraw : Obligations.RandomMasksTheDraw := by
  refine ⟨decodesUnder_nibble .random (by decide) rfl, fun x nn s => ?_⟩
  refine ⟨_, rfl, fun b => ?_, ?_, rfl, rfl, (setReg_frame s x _).append (drawn_frame _)⟩
  · rw [execRandom_reg, BitVec.getLsbD_and, State.rnd]
  · rw [execRandom_reg, BitVec.and_assoc, BitVec.and_not_self]
    exact BitVec.and_zero

end Sys2Proof.Machine
end

section
/-! PROOFS. Index register and memory (43_index_memory.md): the writers of `I`, the range of addresses from
`I` on that BCD and LOAD_REGISTERS write and STORE_REGISTERS reads, and what is written there read back. -/

namespace Sys2Proof.Machine

variable {s t : State}

/-! ### The writers of `I` (43_index_memory.md R190 to R192) -/

/-- Settles O41: the row of nibble 0xA, and the write of `nnn`. -/
theorem setIndexLoadsTheAddress : Obligations.SetIndexLoadsTheAddress :=
  ⟨decodesUnder_nibble .setIndex (by decide) rfl, fun nnn s =>
    ⟨_, rfl, zextAddr_toNat nnn, setIndex_frame s _⟩⟩

/-- Settles O42: the exact sum fits 16 bits, or the 17 bits of the latch. -/
theorem addVxToIndexNeverWraps : Obligations.AddVxToIndexNeverWraps := by
  refine ⟨decodesUnder_nibble_nn .addVxToIndex (by decide) rfl rfl, fun x s =>
    ⟨fun fits => ⟨_, if_neg (Nat.not_lt.mpr fits), ?_, setIndex_frame s _⟩,
     fun above => ⟨_, if_pos above, rfl, ?_, latch_frame s _⟩⟩⟩
  · exact Nat.mod_eq_of_lt (Nat.lt_succ_of_le fits)
  · have := s.index.isLt
    have := (s.reg x).isLt
    exact Nat.mod_eq_of_lt (by omega)

theorem glyphAddr_toNat (d : Byte) : (glyphAddr d).toNat = 0x050 + 5 * d.toNat := by
  have := d.isLt
  exact Nat.mod_eq_of_lt (show 0x050 + 5 * d.toNat < 2 ^ 16 by omega)

/-- What the latch records of a value that is no digit is the value itself. -/
theorem latch_invalidFontDigit (s : State) (value : Byte) :
    (s.latch (.invalidFontDigit value)).fault = latched 7 value.toNat := by
  rw [latched, BitVec.ofNat_toNat]
  rfl

/-- Settles O43: the address of a digit's glyph, the fault of a value above 0xF. -/
theorem fontFindsTheGlyph : Obligations.FontFindsTheGlyph :=
  ⟨decodesUnder_nibble_nn .font (by decide) rfl rfl, fun x s =>
    ⟨fun digit => ⟨_, if_neg (Nat.not_lt.mpr digit), glyphAddr_toNat _, setIndex_frame s _⟩,
     fun above => ⟨_, if_pos above, latch_invalidFontDigit s _, latch_frame s _⟩⟩⟩

/-! ### The addresses from `I` on -/

/-- The addresses of the registers of a block rise with the register. -/
theorem effectiveAddr_mono (s : State) {i x : RegIndex} (h : i ≤ x) :
    effectiveAddr s i.toNat ≤ effectiveAddr s x.toNat :=
  Nat.add_le_add_left h _

/-! ### Writing from `I` on (43_index_memory.md R193, R194) -/

/-- What a range write from `I` on, up to the byte at `I + last`, has done when it ends. -/
structure WrittenAtIndex (s : State) (bs : List Byte) (last : Nat) (t : State) : Prop where
  written : ∀ j (hj : j < bs.length), effectiveAddr s j < 4096 → t.byteAt (effectiveAddr s j) = bs[j]
  fits    : effectiveAddr s last < 4096 → SameBut (bytesAtIndex s (last + 1)) s t
  leaves  : 4096 ≤ effectiveAddr s last →
    t.fault = latched 2 (max s.index.toNat 4096) ∧ SameBut (.fault :: bytesAtIndex s (last + 1)) s t

theorem writeRange_at_index (wf : Memory.wf s.mem) {bs : List Byte} {last : Nat}
    (len : bs.length = last + 1) :
    ∃ t, writeRange s (effectiveAddr s 0) bs = .next t ∧ WrittenAtIndex s bs last t := by
  obtain ⟨t, h, written, fits, leaves⟩ := writeRange_bounds wf (effectiveAddr s 0) bs
  rw [len] at fits leaves
  have nonempty : bs ≠ [] := List.ne_nil_of_length_eq_add_one len
  exact ⟨t, h, written, fun inside => fits (.inr inside),
    fun out => leaves nonempty (Nat.lt_succ_of_le out)⟩

/-- The decimal digit of `v` that BCD writes at `I + j`. -/
def decimalDigit (v j : Nat) : Nat := if j = 0 then v / 100 else if j = 1 then v / 10 % 10 else v % 10

/-- BCD's bytes are the three digits, whatever the value. -/
theorem bcdDigits_toNat (b : Byte) (j : Nat) (hj : j < (bcdDigits Config.bcdFixed3 b).length) :
    ((bcdDigits Config.bcdFixed3 b)[j]).toNat = decimalDigit b.toNat j := by
  have byte {d : Nat} (h : d ≤ b.toNat) : (BitVec.ofNat 8 d).toNat = d :=
    Nat.mod_eq_of_lt (h.trans_lt b.isLt)
  have : j < 3 := hj
  match j with
  | 0 => exact byte (Nat.div_le_self _ _)
  | 1 => exact byte ((Nat.mod_le _ _).trans (Nat.div_le_self _ _))
  | 2 => exact byte (Nat.mod_le _ _)

/-- Settles O44: three bytes from `I` on, the digits of the value. -/
theorem bcdWritesThreeDigits : Obligations.BcdWritesThreeDigits := by
  refine ⟨decodesUnder_nibble_nn .bcd (by decide) rfl rfl, fun x s wf => ?_⟩
  obtain ⟨t, h, done⟩ := writeRange_at_index wf (bs := bcdDigits Config.bcdFixed3 (s.reg x)) rfl
  refine ⟨t, h, fun j hj inside => ?_, done.fits, done.leaves⟩
  rw [done.written j hj inside]
  exact bcdDigits_toNat _ j hj

/-- Settles O45: `x + 1` bytes from `I` on, the register at position `i` of `V0` to `Vx` being `Vi`. -/
theorem loadRegistersWritesMemory : Obligations.LoadRegistersWritesMemory := by
  refine ⟨decodesUnder_nibble_nn .loadRegisters (by decide) rfl rfl, fun x s wf => ?_⟩
  obtain ⟨t, h, done⟩ := writeRange_at_index wf (bs := (regsUpTo x).map s.reg)
    (last := x.toNat) (by simp)
  refine ⟨t, h, fun i hi inside => ?_, done.fits, done.leaves⟩
  have position : i.toNat < (regsUpTo x).length := by
    rw [regsUpTo_length]
    exact Nat.lt_succ_of_le hi
  have register : (regsUpTo x)[i.toNat] = i := BitVec.eq_of_toNat_eq (regsUpTo_getElem position)
  rw [done.written i.toNat (by simpa using position) inside, List.getElem_map, register]

/-! ### Reading from `I` on (43_index_memory.md R195) -/

/-- The first address out of bounds of a block load is its base, or 4096: the register before it is one
of the block. -/
theorem first_out_of_bounds {base : Nat} {x i : RegIndex} (hi : i ≤ x)
    (out : Config.memSize ≤ base + i.toNat)
    (below : ∀ j ∈ regsUpTo x, j.toNat < i.toNat → base + j.toNat < Config.memSize) :
    base + i.toNat = max base 4096 := by
  have out : 4096 ≤ base + i.toNat := out
  by_cases zero : i.toNat = 0
  · omega
  · have pred : (i - 1).toNat = i.toNat - 1 := by bv_omega
    have inside : base + (i - 1).toNat < 4096 :=
      below (i - 1) (mem_regsUpTo.mpr (by bv_omega)) (by omega)
    omega

/-- A block load from `I` on goes through where its last address is in bounds, and else latches its first
address out of bounds. -/
theorem loadRegsFrom_at_index (x : RegIndex) (s : State) :
    ∃ w, BlockLoaded s (effectiveAddr s 0) (regsUpTo x) w ∧
      loadRegsFrom (effectiveAddr s 0) (regsUpTo x) s = .next
        (if effectiveAddr s x.toNat < 4096 then w
         else w.latch (outOfBounds (max s.index.toNat 4096))) := by
  obtain ⟨w, loaded, ⟨inside, e⟩ | ⟨i, hi, out, below, e⟩⟩ :=
    loadRegsFrom_spec (base := effectiveAddr s 0) (s := s) (regsUpTo_sorted x)
  · have fits : effectiveAddr s x.toNat < 4096 := inside x (mem_regsUpTo.mpr (BitVec.le_refl x))
    exact ⟨w, loaded, by rw [e, if_pos fits]⟩
  · have hi : i ≤ x := mem_regsUpTo.mp hi
    have leaves : ¬ effectiveAddr s x.toNat < 4096 :=
      Nat.not_lt.mpr (out.trans (effectiveAddr_mono s hi))
    refine ⟨w, loaded, ?_⟩
    rw [e, if_neg leaves, first_out_of_bounds hi out below]
    rfl

/-- Settles O46: the registers with an address in memory are loaded, every other one is kept. -/
theorem storeRegistersReadsMemory : Obligations.StoreRegistersReadsMemory := by
  refine ⟨decodesUnder_nibble_nn .storeRegisters (by decide) rfl rfl, fun x s => ?_⟩
  obtain ⟨w, loaded, e⟩ := loadRegsFrom_at_index x s
  have kept (i : RegIndex) (out : 4096 ≤ effectiveAddr s i.toNat) : w.reg i = s.reg i := by
    by_cases hi : i ∈ regsUpTo x
    · exact loaded.kept i hi out
    · exact loaded.frame.regs i (by simpa using hi)
  have read (i : RegIndex) (hi : i ≤ x) (inside : effectiveAddr s i.toNat < 4096) :
      w.reg i = s.byteAt (effectiveAddr s i.toNat) := loaded.loaded i (mem_regsUpTo.mpr hi) inside
  by_cases fits : effectiveAddr s x.toNat < 4096
  · rw [if_pos fits] at e
    exact ⟨w, e, read, kept, fun _ => loaded.frame, fun out => absurd fits (Nat.not_lt.mpr out)⟩
  · rw [if_neg fits] at e
    exact ⟨_, e, read, kept, fun h => absurd h fits, fun _ => ⟨rfl, loadRegsFrom_frame e⟩⟩

/-! ### What is written, read back (95_test_vectors.md Q19, Q20) -/

/-- STORE_REGISTERS, in a state that has kept memory and `I`, reads the bytes that stand from `I` on. -/
theorem storeRegisters_reads_back {x : RegIndex} {t' : State} (mem : t'.mem = t.mem)
    (index : t'.index = s.index) (fits : effectiveAddr s x.toNat < 4096) :
    ∃ u, exec (.storeRegisters x) t' = .next u ∧ SameBut (regParts x) t' u ∧
      ∀ i ≤ x, u.reg i = t.byteAt (effectiveAddr s i.toNat) := by
  obtain ⟨u, h, read, -, frame, -⟩ := storeRegistersReadsMemory.2 x t'
  have addr (j : Nat) : effectiveAddr t' j = effectiveAddr s j := congrArg (·.toNat + j) index
  have byte (a : Nat) : t'.byteAt a = t.byteAt a := congrArg (Memory.read · a) mem
  simp only [addr, byte] at read frame
  exact ⟨u, h, frame fits, fun i hi => read i hi ((effectiveAddr_mono s hi).trans_lt fits)⟩

/-- Settles O47: the byte that STORE_REGISTERS reads into a register is the one that LOAD_REGISTERS wrote
from it. -/
theorem savedRegistersComeBack : Obligations.SavedRegistersComeBack := by
  intro x s wf fits
  obtain ⟨t, h, written, -, -⟩ := loadRegistersWritesMemory.2 x s wf
  refine ⟨t, h, fun t' mem index => ?_⟩
  obtain ⟨u, hu, frame, read⟩ := storeRegisters_reads_back mem index fits
  exact ⟨u, hu, frame, fun i hi =>
    (read i hi).trans (written i hi ((effectiveAddr_mono s hi).trans_lt fits))⟩

/-- Settles O48: the three registers hold the decimal digits, and a byte has three at most. -/
theorem bcdDigitsReadBack : Obligations.BcdDigitsReadBack := by
  intro x s wf fits
  obtain ⟨t, h, written, frame, -⟩ := bcdWritesThreeDigits.2 x s wf
  have index : t.index = s.index := (frame fits).index (by simp [bytesAtIndex])
  obtain ⟨u, hu, -, read⟩ := storeRegisters_reads_back (x := 2) (t' := t) rfl index fits
  have digit (i : RegIndex) (hi : i ≤ 2) : (u.reg i).toNat = decimalDigit (s.reg x).toNat i.toNat := by
    rw [read i hi]
    exact written i.toNat (Nat.lt_succ_of_le hi) ((effectiveAddr_mono s hi).trans_lt fits)
  have hundreds : (u.reg 0).toNat = (s.reg x).toNat / 100 := digit 0 (by decide)
  have tens : (u.reg 1).toNat = (s.reg x).toNat / 10 % 10 := digit 1 (by decide)
  have ones : (u.reg 2).toNat = (s.reg x).toNat % 10 := digit 2 (by decide)
  have := (s.reg x).isLt
  exact ⟨t, u, h, hu, by omega, by omega, by omega, by omega⟩

end Sys2Proof.Machine
end

section
/-! PROOFS. The display (44_display.md): the sprite a DISPLAY reads, the drawing it puts on the screen, and
a second drawing of the same sprite. -/

namespace Sys2Proof.Machine

variable {s t : State} {n : BitVec 4}

/-! ### CLEAR_SCREEN (44_display.md R212) -/

/-- Settles O50: the row of nibble 0 with `nn = 0xE0`, and the cleared framebuffer. -/
theorem clearScreenTurnsEveryPixelOff : Obligations.ClearScreenTurnsEveryPixelOff :=
  ⟨decodesUnder_nibble_nn .clearScreen (by decide) rfl rfl, fun _ s =>
    ⟨_, rfl, Framebuffer.pixel_clear, setFb_frame s _⟩⟩

/-! ### The sprite at `I` (44_display.md R213) -/

/-- The sprite that a DISPLAY of `n` rows draws: the `n` bytes from `I` on. -/
def spriteAtIndex (s : State) (n : BitVec 4) : List Byte :=
  (List.range n.toNat).map fun j => s.byteAt (effectiveAddr s j)

/-- The pixels that this sprite covers, drawn at `V[x]` and `V[y]`. -/
def coveredByDisplay (s : State) (x y : RegIndex) (n : BitVec 4) : Fin 32 → Fin 64 → Bool :=
  spriteCovers (spriteAtIndex s n) (s.reg x) (s.reg y)

/-- A sprite is no higher than the screen, so that no two of its rows meet. -/
theorem spriteAtIndex_length_le (s : State) (n : BitVec 4) : (spriteAtIndex s n).length ≤ 32 := by
  rw [spriteAtIndex, List.length_map, List.length_range]
  omega

theorem coveredByDisplay_congr {x y : RegIndex} (bytes : ∀ a, t.byteAt a = s.byteAt a)
    (index : t.index = s.index) (regX : t.reg x = s.reg x) (regY : t.reg y = s.reg y) :
    coveredByDisplay t x y n = coveredByDisplay s x y n := by
  simp only [coveredByDisplay, spriteAtIndex, effectiveAddr, bytes, index, regX, regY]

theorem readRange_spriteAtIndex (fits : n = 0 ∨ s.index.toNat + n.toNat ≤ Config.memSize) :
    readRange s (effectiveAddr s 0) n.toNat = .ok (spriteAtIndex s n) := by
  rcases fits with rfl | fits
  · rfl
  · exact readRange_ok fits

/-! ### DISPLAY by whether its sprite is in memory (44_display.md R211, R213) -/

/-- What a draw over the pixels `covers` has done: they are toggled, `VF` says whether one of them was on,
and nothing else has changed. -/
structure SpriteDrawn (covers : Fin 32 → Fin 64 → Bool) (s t : State) : Prop where
  toggled : ∀ r c, t.fb.pixel r c = (s.fb.pixel r c ^^ covers r c)
  met     : (∃ r c, covers r c = true ∧ s.fb.pixel r c = true) → t.reg 0xF = 1
  unmet   : (∀ r c, covers r c = true → s.fb.pixel r c = false) → t.reg 0xF = 0
  frame   : SameBut [.fb, .reg 0xF] s t

/-- A sprite in memory is drawn; the pixels and the collision are those of `drawSprite`. -/
theorem execDisplay_fits (x y : RegIndex)
    (fits : n = 0 ∨ s.index.toNat + n.toNat ≤ Config.memSize) :
    ∃ t, execDisplay x y n s = .next t ∧ SpriteDrawn (coveredByDisplay s x y n) s t := by
  have height := spriteAtIndex_length_le s n
  have collides := collision_drawSprite (fb := s.fb) height (s.reg x) (s.reg y)
  rw [execDisplay, readRange_spriteAtIndex fits]
  refine ⟨_, rfl, pixel_drawSprite height _ _, fun met => ?_, fun unmet => ?_,
    (setFb_frame s _).append (setReg_frame _ 0xF _)⟩
  · rw [State.setFlag_reg_VF, collides.mpr met]
    rfl
  · have noCollision := mt collides.mp fun ⟨r, c, covered, on⟩ =>
      Bool.false_ne_true ((unmet r c covered).symm.trans on)
    rw [State.setFlag_reg_VF, Bool.eq_false_of_not_eq_true noCollision]
    rfl

/-- A sprite that leaves memory is not drawn: the first address out of bounds faults. -/
theorem execDisplay_leaves (x y : RegIndex) (nonempty : n ≠ 0)
    (out : Config.memSize < s.index.toNat + n.toNat) :
    execDisplay x y n s = raise (outOfBounds (max s.index.toNat Config.memSize)) s := by
  have rows : 0 < n.toNat := by bv_omega
  have failed : readRange s (effectiveAddr s 0) n.toNat = _ := readRange_error rows out
  rw [execDisplay, failed]
  rfl

/-- Settles O51: the row of nibble 0xD, and the sprite in memory, drawn. -/
theorem displayTogglesCoveredPixels : Obligations.DisplayTogglesCoveredPixels := by
  refine ⟨decodesUnder_nibble .display (by decide) rfl, fun x y n s fits => ?_⟩
  obtain ⟨t, h, drawn⟩ := execDisplay_fits x y fits
  exact ⟨t, h, drawn.toggled, drawn.met, drawn.unmet, drawn.frame⟩

/-- Settles O52: the read of the sprite faults before anything is drawn. -/
theorem displayFaultDrawsNothing : Obligations.DisplayFaultDrawsNothing :=
  fun x y _ s nonempty out => ⟨_, execDisplay_leaves x y nonempty out, rfl, latch_frame s _⟩

/-! ### The same sprite twice (95_test_vectors.md Q10) -/

section
variable {covers : Fin 32 → Fin 64 → Bool} {t' u : State}

/-- `VF` is 1 after a draw exactly where a covered pixel was on. -/
theorem SpriteDrawn.collides_iff (drawn : SpriteDrawn covers s t) :
    t.reg 0xF = 1 ↔ ∃ r c, covers r c = true ∧ s.fb.pixel r c = true := by
  refine ⟨fun flag => ?_, drawn.met⟩
  by_contra noneMet
  have unmet (r c) (covered : covers r c = true) : s.fb.pixel r c = false :=
    Bool.eq_false_of_not_eq_true fun on => noneMet ⟨r, c, covered, on⟩
  exact absurd (flag.symm.trans (drawn.unmet unmet)) (by decide)

/-- A second draw over the same pixels toggles them back. -/
theorem SpriteDrawn.twice_fb (first : SpriteDrawn covers s t) (second : SpriteDrawn covers t' u)
    (fb : t'.fb = t.fb) : u.fb = s.fb :=
  Framebuffer.ext_pixel fun r c => by
    rw [second.toggled, fb, first.toggled, Bool.xor_assoc, Bool.xor_self, Bool.xor_false]

/-- A covered pixel that is on before the second draw was off before the first. -/
theorem SpriteDrawn.twice_collides_iff (first : SpriteDrawn covers s t)
    (second : SpriteDrawn covers t' u) (fb : t'.fb = t.fb) :
    u.reg 0xF = 1 ↔ ∃ r c, covers r c = true ∧ s.fb.pixel r c = false := by
  have flipped (r c) (covered : covers r c = true) : t'.fb.pixel r c = !s.fb.pixel r c := by
    rw [fb, first.toggled, covered, Bool.xor_true]
  rw [second.collides_iff]
  refine exists₂_congr fun r c => and_congr_right fun covered => ?_
  rw [flipped r c covered, Bool.not_eq_true']

end

/-- Settles O53: the second draw covers the pixels of the first. -/
theorem drawingTwiceRestoresTheScreen : Obligations.DrawingTwiceRestoresTheScreen := by
  intro x y n s fits
  obtain ⟨t, h, first⟩ := execDisplay_fits x y (.inr fits)
  refine ⟨t, h, fun t' fb mem index regX regY => ?_⟩
  obtain ⟨u, hu, second⟩ := execDisplay_fits (s := t') x y (n := n) (.inr (index ▸ fits))
  have bytes (a : Nat) : t'.byteAt a = s.byteAt a :=
    (congrArg (Memory.read · a) mem).trans (first.frame.bytes a (by simp))
  rw [coveredByDisplay_congr bytes index regX regY] at second
  exact ⟨u, hu, first.twice_fb second fb, first.twice_collides_iff second fb⟩

end Sys2Proof.Machine
end

section
/-! PROOFS. Keypad and timers (45_keypad_timers.md): the key skips and WAIT_FOR_KEY by whether a key is
held, and the moves to and from the timers. -/

namespace Sys2Proof.Machine

variable {s : State} {k : Byte}

/-! ### The key skips (45_keypad_timers.md R231, R232) -/

/-- With a key held, `keyIs` compares all 8 bits. -/
theorem keyIs_of_held (held : s.key = some k) (b : Byte) : keyIs s b = decide (b = k) := by
  rw [keyIs, held, Option.some_beq_some, beq_eq_decide, decide_eq_decide]
  exact eq_comm

/-- With no key held, `keyIs` is false of every byte. -/
theorem keyIs_of_no_key (noKey : s.key = none) (b : Byte) : keyIs s b = false := by
  rw [keyIs, noKey]
  rfl

/-- Settles O54: the two rows of nibble 0xE, and one skip on the condition whose negation is the other's. -/
theorem keySkipsAreOpposite : Obligations.KeySkipsAreOpposite := by
  refine ⟨decodesUnder_nibble_nn .skipIfKeyEq (by decide) rfl rfl,
    decodesUnder_nibble_nn .skipIfKeyNeq (by decide) rfl rfl, fun x s => ?_⟩
  refine ⟨_, _, skipIf_eq (keyIs s (s.reg x)) s, skipIf_eq (!keyIs s (s.reg x)) s,
    setPc_frame s _, setPc_frame s _, fun k held => ?_, fun noKey => ?_⟩
  · simp [keyIs_of_held held]
  · simp [keyIs_of_no_key noKey]

/-! ### WAIT_FOR_KEY (45_keypad_timers.md R233) -/

theorem execWaitForKey_some (x : RegIndex) (held : s.key = some k) :
    execWaitForKey x s = .next (s.setReg x k) := by
  rw [execWaitForKey, held]

/-- Settles O55: the row of nibble 0xF with `nn = 0x0A`, and the instruction by whether a key is held. -/
theorem waitForKeyStoresTheKey : Obligations.WaitForKeyStoresTheKey :=
  ⟨decodesUnder_nibble_nn .waitForKey (by decide) rfl rfl, fun x s =>
    ⟨fun k held =>
      ⟨_, execWaitForKey_some x held, State.setReg_reg_self s x k, setReg_frame s x k⟩,
     fun noKey =>
      ⟨_, execWaitForKey_none x noKey, BitVec.sub_add_cancel s.pc 2, setPc_frame s _⟩⟩⟩

/-! ### The timer moves (45_keypad_timers.md R234 to R236) -/

/-- Settles O56: the three rows of nibble 0xF, and the write of each timer or register. -/
theorem timerMovesCopyTheirValue : Obligations.TimerMovesCopyTheirValue :=
  ⟨decodesUnder_nibble_nn .setDelayFromVx (by decide) rfl rfl,
    decodesUnder_nibble_nn .setSoundFromVx (by decide) rfl rfl,
    decodesUnder_nibble_nn .setVxFromDelay (by decide) rfl rfl, fun x s =>
    ⟨⟨_, rfl, rfl, setDt_frame s (s.reg x)⟩,
     ⟨_, rfl, rfl, setSt_frame s (s.reg x)⟩,
     ⟨_, rfl, State.setReg_reg_self s x s.dt, setReg_frame s x s.dt⟩⟩⟩

end Sys2Proof.Machine
end

section
/-! PROOFS. Faults (60_exceptions.md): the fetch that leaves memory, what the execute step answers, and
from that the cycles that latch UnhandledOperation. -/

namespace Sys2Proof.Machine

variable {s t : State}

/-! ### The fetch that leaves memory (60_exceptions.md R252) -/

/-- Settles O9: the first address out of bounds is `pc`, or 4096 where only the second byte leaves. -/
theorem fetchOutOfBoundsIsLatched : Obligations.FetchOutOfBoundsIsLatched := by
  intro s running out
  have first : (if s.pc.toNat < 4096 then 4096 else s.pc.toNat) = max s.pc.toNat 4096 := by
    split <;> omega
  rw [first]
  exact ⟨_, step_fetch_fault running out, rfl, latch_frame s _⟩

/-! ### What the execute step answers (60_exceptions.md R261) -/

/-- A next state, whose latch is the one before or holds a fault that is not code 1: UnhandledOperation
is raised in classify, before any instruction is executed (R251). -/
def EffectAnswers (s : State) (r : Result) : Prop :=
  ∃ t, r = .next t ∧ (t.fault = s.fault ∨ t.fault.code ≠ 1)

/-- The fault of an access outside memory is code 2. -/
theorem outOfBounds_code_ne (a : Nat) : (outOfBounds a).code ≠ 1 := by
  simp [outOfBounds, Fault.code]

theorem effectAnswers_next (kept : t.fault = s.fault) : EffectAnswers s (.next t) :=
  ⟨t, rfl, .inl kept⟩

theorem effectAnswers_raise {f : Fault} (other : f.code ≠ 1) : EffectAnswers s (raise f s) :=
  ⟨s.latch f, rfl, .inr other⟩

theorem effectAnswers_skipIf (c : Bool) (s : State) : EffectAnswers s (skipIf c s) :=
  ⟨_, skipIf_eq c s, .inl rfl⟩

theorem effectAnswers_writeRange (s : State) (a : Nat) (bs : List Byte) :
    EffectAnswers s (writeRange s a bs) := by
  obtain ⟨t, h⟩ := writeRange_answers bs a s
  exact ⟨t, h, (writeRange_latch h).imp_right fun ⟨b, _, _, _, latch⟩ =>
    latch ▸ outOfBounds_code_ne b⟩

theorem effectAnswers_loadRegsFrom (base : Nat) (is : List RegIndex) (s : State) :
    EffectAnswers s (loadRegsFrom base is s) := by
  obtain ⟨t, h⟩ := loadRegsFrom_answers base is s
  exact ⟨t, h, (loadRegsFrom_latch h).imp_right fun ⟨b, _, _, latch⟩ =>
    latch ▸ outOfBounds_code_ne b⟩

theorem effectAnswers_ret (x : RegIndex) (s : State) : EffectAnswers s (execRet x s) := by
  rcases Fin.eq_zero_or_eq_succ s.sp with empty | ⟨k, depth⟩
  · rw [execRet_empty x empty]
    exact effectAnswers_raise (by decide)
  · rw [execRet_succ x depth]
    exact effectAnswers_next rfl

theorem effectAnswers_call (nnn : Addr12) (s : State) : EffectAnswers s (execCall nnn s) := by
  by_cases free : s.sp.val < Config.stackDepth
  · rw [execCall_free nnn free]
    exact effectAnswers_next rfl
  · rw [execCall_full nnn free]
    exact effectAnswers_raise (by decide)

theorem effectAnswers_display (x y : RegIndex) (n : BitVec 4) (s : State) :
    EffectAnswers s (execDisplay x y n s) := by
  by_cases fits : n = 0 ∨ s.index.toNat + n.toNat ≤ Config.memSize
  · obtain ⟨t, h, drawn⟩ := execDisplay_fits x y fits
    exact ⟨t, h, .inl (drawn.frame.fault (by decide))⟩
  · obtain ⟨nonempty, out⟩ := not_or.mp fits
    rw [execDisplay_leaves x y nonempty (Nat.not_le.mp out)]
    exact effectAnswers_raise (outOfBounds_code_ne _)

theorem effectAnswers_addVxToIndex (x : RegIndex) (s : State) :
    EffectAnswers s (execAddVxToIndex x s) := by
  unfold execAddVxToIndex
  dsimp only
  split
  · exact effectAnswers_raise (by simp [Fault.code])
  · exact effectAnswers_next rfl

theorem effectAnswers_font (x : RegIndex) (s : State) : EffectAnswers s (execFont x s) := by
  unfold execFont
  split
  · exact effectAnswers_raise (by simp [Fault.code])
  · exact effectAnswers_next rfl

theorem effectAnswers_waitForKey (x : RegIndex) (s : State) :
    EffectAnswers s (execWaitForKey x s) := by
  unfold execWaitForKey
  split <;> exact effectAnswers_next rfl

/-- Every instruction answers a next state, and none latches UnhandledOperation. -/
theorem exec_answers (i : Instr) (s : State) : EffectAnswers s (exec i s) := by
  cases i
  case ret x => exact effectAnswers_ret x s
  case call nnn => exact effectAnswers_call nnn s
  case display x y n => exact effectAnswers_display x y n s
  case addVxToIndex x => exact effectAnswers_addVxToIndex x s
  case font x => exact effectAnswers_font x s
  case waitForKey x => exact effectAnswers_waitForKey x s
  case bcd | loadRegisters => exact effectAnswers_writeRange s _ _
  case storeRegisters => exact effectAnswers_loadRegsFrom _ _ s
  case skipIfVxNnEq | skipIfVxNnNeq | skipIfVxVyEq | skipIfVxVyNeq | skipIfKeyEq | skipIfKeyNeq =>
    exact effectAnswers_skipIf _ s
  all_goals exact effectAnswers_next rfl

/-- Every step answers a next state, whichever of the four kinds it is. -/
theorem step_answers (s : State) : ∃ t, step s = .next t := by
  rcases step_cases s with ⟨-, e⟩ | ⟨-, -, e⟩ | ⟨-, -, -, e⟩ | ⟨i, -, -, e⟩
  · exact ⟨_, e⟩
  · exact ⟨_, e⟩
  · exact ⟨_, e⟩
  · obtain ⟨u, hu, -⟩ := exec_answers i s.advancePc
    exact ⟨_, e.trans (finish_eq_next.mpr ⟨u, hu, rfl⟩)⟩

/-- Settles O11, instruction by instruction and kind of step by kind of step. -/
theorem everyStepAnswersANextState : Obligations.EveryStepAnswersANextState := by
  refine ⟨fun i s => ?_, step_answers⟩
  obtain ⟨t, h, -⟩ := exec_answers i s
  exact ⟨t, h⟩

/-! ### The unassigned opcode (60_exceptions.md R251) -/

/-- What the latch records of an unassigned opcode is the opcode itself. -/
theorem latch_unhandledOperation (s : State) (opcode : Word) :
    (s.latch (.unhandledOperation opcode)).fault = latched 1 opcode.toNat := by
  rw [latched, BitVec.ofNat_toNat]
  rfl

/-- The cycle of a decoded instruction does not end with UnhandledOperation latched. -/
theorem code_ne_of_step_fetches {i : Instr} (running : Running s) (fetches : Fetches s i)
    (h : step s = .next t) (faulted : t.fault.valid = true) : t.fault.code ≠ 1 := by
  obtain ⟨u, hu, frame⟩ := effect_frame running fetches h
  obtain ⟨u', hu', latch⟩ := exec_answers i s.advancePc
  obtain rfl : u = u' := Host.Outcome.next.inj (hu.symm.trans hu')
  rw [frame.fault (by decide)] at faulted ⊢
  refine latch.resolve_left fun kept => ?_
  rw [kept, State.advancePc_fault, running] at faulted
  cases faulted

/-- Settles O10: classify raises on an unassigned opcode, and no other kind of step latches code 1. -/
theorem unassignedOpcodeIsLatched : Obligations.UnassignedOpcodeIsLatched := by
  refine fun s running => ⟨fun fetched unassigned => ?_, fun t h faulted code => ?_⟩
  · exact ⟨_, step_unassigned running fetched unassigned, rfl, latch_unhandledOperation _ _,
      (setPc_frame s _).append (latch_frame s.advancePc _)⟩
  · rcases step_cases s with
      ⟨halted, -⟩ | ⟨-, -, e⟩ | ⟨-, fetched, unassigned, -⟩ | ⟨i, -, fetches, -⟩
    · exact absurd (running.symm.trans halted) Bool.false_ne_true
    · cases e.symm.trans h
      exact absurd code (outOfBounds_code_ne (max s.pc.toNat Config.memSize))
    · exact ⟨fetched, unassigned⟩
    · exact absurd code (code_ne_of_step_fetches running fetches h faulted)

end Sys2Proof.Machine
end

section
/-! PROOFS. Reset, launch and the idle loop (70_reset_and_hazards.md): every list of the host's moves
keeps the invariant, a launch is a range write onto the reset block, and a cycle at the idle loop is the
tick alone. -/

namespace Sys2Proof.Machine

variable {s : State}

/-! ### The host's moves (70_reset_and_hazards.md R294) -/

/-- Every move of the host, a cycle that faults and a ROM too long included, answers a next state of the
invariant. -/
theorem hostMove_keeps_inv (inv : s.Inv) (m : HostMove) : ∃ t, hostMove m s = .next t ∧ t.Inv := by
  cases m with
  | reset => exact ⟨s.restart, rfl, restart_inv s⟩
  | launch rom =>
    obtain ⟨t, loaded⟩ := writeRange_answers rom Config.programStart s.restart
    exact ⟨t, loaded, launch_inv loaded⟩
  | setKey k => exact ⟨s.setKey k, rfl, inv.setKey k⟩
  | cycle =>
    obtain ⟨t, stepped⟩ := step_answers s
    exact ⟨t, stepped, stepKeepsTheInvariant s t inv stepped⟩

/-- Settles O14, by induction on the list of moves. -/
theorem hostMovesKeepTheInvariant : Obligations.HostMovesKeepTheInvariant := by
  intro ms
  induction ms with
  | nil => exact fun s inv => ⟨s, rfl, inv⟩
  | cons m ms ih =>
    intro s inv
    obtain ⟨u, moved, invU⟩ := hostMove_keeps_inv inv m
    rw [hostMoves_cons moved]
    exact ih u invU

/-! ### The launch (70_reset_and_hazards.md R292, 20_memory.md R75) -/

/-- The block after a reset at any moment is that after power-on; the port `RND` alone may differ. -/
theorem restart_frame (s : State) : SameBut [.random] State.reset s.restart := by
  constructor
  case random => exact fun h => absurd (List.mem_singleton_self _) h
  all_goals intros; rfl

/-- Settles O59: the launch is the range write of the ROM from 0x200 on, which reaches 0x1000 with its
3585th byte. -/
theorem romLoadPlacesTheBytes : Obligations.RomLoadPlacesTheBytes := by
  intro rom s
  obtain ⟨wf, -⟩ := restart_inv s
  obtain ⟨t, loaded, placed, fits, leaves⟩ := writeRange_bounds wf 0x200 rom
  have port : t.random = s.random := (writeRange_frame_but_memory loaded).random (by simp)
  refine ⟨t, loaded, port, placed, fun short => ?_, fun long => ?_⟩
  · have inside : 0x200 + rom.length ≤ 4096 := by omega
    exact (restart_frame s).append (fits (.inr inside))
  · have outside : 4096 < 0x200 + rom.length := by omega
    have nonempty : rom ≠ [] := List.ne_nil_of_length_pos (by omega)
    obtain ⟨latched, frame⟩ := leaves nonempty outside
    exact ⟨latched, (restart_frame s).append frame⟩

/-! ### The idle loop (70_reset_and_hazards.md R301) -/

/-- At the idle loop the opcode fetched is the JUMP to its own address. -/
theorem fetches_jump_of_atIdleLoop {a : Addr12} (idle : AtIdleLoop a s) : Fetches s (.jump a) := by
  obtain ⟨pc, inside, opcode⟩ := idle
  have pcNat : s.pc.toNat = a.toNat := pc ▸ zextAddr_toNat a
  have atPc : opcodeAtPc s = encode (.jump a) := by rw [opcodeAtPc, pcNat, opcode]
  exact ⟨pcNat ▸ inside, atPc ▸ decodeWord_encode _⟩

/-- The jump puts `pc` back where fetch has found it. -/
theorem exec_jump_advancePc {a : Addr12} (pc : s.pc = zextAddr a) :
    exec (.jump a) s.advancePc = .next s :=
  congrArg (fun w => Host.Outcome.next (s.advancePc.setPc w)) pc.symm

/-- A cycle at the idle loop is the timer tick and nothing else. -/
theorem step_atIdleLoop {a : Addr12} (running : Running s) (idle : AtIdleLoop a s) :
    step s = .next s.tick := by
  rw [step_fetches running (fetches_jump_of_atIdleLoop idle), exec_jump_advancePc idle.1]
  have ticks : ¬ (s.fault.valid = true ∨ waits (.jump a) s = true) := by
    rw [running, waits_iff]
    simp [Instr.opType]
  exact finish_eq_next.mpr ⟨s, rfl, (if_neg ticks).symm⟩

/-- Settles O60: the tick keeps `pc`, memory and the latch, and takes 1 from each timer above 0. -/
theorem idleLoopOnlyCountsDown : Obligations.IdleLoopOnlyCountsDown := fun _ s running idle =>
  ⟨s.tick, step_atIdleLoop running idle, running, idle, tickTimer_toNat s.dt, tickTimer_toNat s.st,
    tick_frame s⟩

/-! ### The font (70_reset_and_hazards.md R291) -/

/-- Settles O58: the five bytes at a glyph's address are inside memory, and each is the font table's. -/
theorem resetCopiesTheFont : Obligations.ResetCopiesTheFont := by
  refine ⟨rfl, fun d hd => ?_⟩
  have digit : d < 16 := hd
  have inside : 0x050 + 5 * d + 5 ≤ 4096 := by omega
  rw [readRange_ok inside]
  interval_cases d <;> rfl

end Sys2Proof.Machine
end
